-- ==== Sys2Proof/Word.lean ====
section
/-! DEFINITION. The word types of the block: a byte is 8 bits (R9), every wider value is a bit vector of the
width the spec gives it. -/

namespace Sys2Proof

/-- A byte is 8 bits (R9). -/
abbrev Byte := BitVec 8

/-- `u16` of R9: checksum, packed ID, length, week number, `LIMIT`. -/
abbrev U16 := BitVec 16

/-- `u32` of R9: time of week. -/
abbrev U32 := BitVec 32

/-- A block number, `u13` (R93). -/
abbrev BlockNumber := BitVec 13

/-- A block revision, `u3` (R93). -/
abbrev BlockRevision := BitVec 3

end Sys2Proof
end

