-- ==== Sys2Proof/Config.lean ====
section
/-! DEFINITION. What the spec fixes once and for all (R6), what it leaves to the implementation or to the
surrounding application (R7), and the interface of the two external collaborators (R10). An OPEN parameter is an
opaque constant: nothing can be proved of its value. -/

namespace Sys2Proof

/-! ### Values of the external collaborators -/

/-- A calendar timestamp, the first result of `TimeConv`: an opaque type of the spec (R10, R146, D24). The model
carries a token of it, so that a Frame is plain data; no rule reads the token. DESIGN CHOICE, log entry 6. -/
structure Timestamp where
  token : Nat
  deriving DecidableEq, Repr, Inhabited

/-- A calendar date, the second result of `TimeConv`: as `Timestamp`. -/
structure CalendarDate where
  token : Nat
  deriving DecidableEq, Repr, Inhabited

/-- The value of one decoded body field (R188 to R193): `none` is the explicit absent value of a sentinel (R186).
A float is carried as its bit pattern: the block does no floating-point arithmetic (R45, R192). -/
inductive FieldValue where
  | u8 (v : Option (BitVec 8))
  | u16 (v : Option (BitVec 16))
  | u32 (v : Option (BitVec 32))
  | i8 (v : Option Int)
  | i16 (v : Option Int)
  | i32 (v : Option Int)
  | f32 (v : Option (BitVec 32))
  | f64 (v : Option (BitVec 64))
  deriving DecidableEq, Repr

/-- The value that the generic decoder of a layout yields: its fields by name and the trailing padding integer, absent
when zero-length (R195, R196, R199). -/
structure LayoutValue where
  fields : List (String × FieldValue)
  padding : Option Nat
  deriving DecidableEq, Repr

/-- The structured value of a body, an opaque type of the spec (R33, D24). No shape is assumed of it: sub-blocks,
repeated groups and parts of variable length are the decoder's (R200). DESIGN CHOICE, log entry 6. -/
inductive Body where
  /-- What DECODE_LAYOUT yields (R199). -/
  | layout (value : LayoutValue)
  /-- Any other value of an external decoder, as a token that no rule reads. -/
  | external (token : Nat)
  deriving DecidableEq, Repr

/-- BodyResult (R33): a name, and a body that is absent when unknown or undecodable. -/
structure BodyResult where
  name : String
  body : Option Body
  deriving DecidableEq, Repr, Inhabited

/-- A body decoder: a total pure function of the block revision and the body bytes (R10, R185). -/
abbrev Decoder := BlockRevision → List Byte → BodyResult

namespace Config

/-! ### Constants the source fixes (R6) -/

/-- First byte of the sync marker (R91). -/
abbrev sync0 : Byte := 0x24
/-- Second byte of the sync marker (R91). -/
abbrev sync1 : Byte := 0x40
/-- Bytes of header and time together: the minimal frame length of R6. -/
abbrev minFrame : Nat := 14
/-- A frame's length must be a multiple of this (R6). -/
abbrev lenAlign : Nat := 4
/-- The CRC polynomial (R6). -/
abbrev crcPoly : U16 := 0x1021
/-- The CRC's initial register (R6). -/
abbrev crcInit : U16 := 0x0000
/-- "Unknown" time of week (R6). -/
abbrev towSentinel : U32 := 0xFFFFFFFF
/-- "Unknown" week number (R6). -/
abbrev wncSentinel : U16 := 0xFFFF
/-- The default buffer cap, 65535 bytes (R6). -/
abbrev limitDefault : U16 := 65535
/-- The name of an unmapped block (R6). -/
abbrev unknownName : String := "unknown"

/-! ### Parameters with a value the spec decides (R7) -/

/-- `RESET_MODE`, decided 1, accumulate (R7, D4). DESIGN CHOICE of the spec, log entry 2. -/
abbrev resetMode : BitVec 1 := 1
/-- `LIMIT_MAX`, decided 65535: `LIMIT` is a 16-bit register (R7, D6). -/
abbrev limitMax : Nat := 65535
/-- `CHUNK_MAX`, decided unbounded (R7, D16): `none` is no bound. DESIGN CHOICE of the spec, log entry 4. -/
def chunkMax : Option Nat := none
/-- `QUEUE_CAP`, decided unbounded (R7, D15): `none` is no bound. DESIGN CHOICE of the spec, log entry 4. -/
def queueCap : Option Nat := none

/-! ### Open parameters (R7, R10) -/

/-- The number of firmware keys besides key 0. `FW_SET` is finite and not empty and its keys are numbered from 0
(R25, D5), so it is the keys 0 to `fwOthers`. OPEN, log entry 3. -/
opaque fwOthers : Nat

/-- `FW_RESET`, a key of `FW_SET` (R25, D5, R333). OPEN, log entry 3. -/
opaque fwResetKey : Fin (fwOthers + 1)

/-- `Registry` (R10, R181): for each firmware key an immutable partial map from block numbers to decoders. OPEN,
log entry 5. -/
opaque registry : Nat → BlockNumber → Option Decoder

/-- `TimeConv` (R10, R146): week number first, time of week second. OPEN, log entry 5. -/
opaque timeConv : U16 → U32 → Timestamp × CalendarDate

/-- `BUS_MAP` (R7, R76, D13): the bus address of each register number, for a platform that maps the registers. OPEN,
log entry 20. -/
opaque busMap : Nat → Nat

end Config

/-- The parameters of the block, the table of R7. The operations that read one take it as an argument, so that their
laws hold of every choice. `FW_W` and `IDX_W` follow from the others (R25, D27). -/
structure BlockParams where
  /-- `FW_SET` is the keys 0 to `fwOthers` (R25, D5). -/
  fwOthers : Nat
  /-- `FW_RESET`. -/
  fwReset : Nat
  /-- `Registry`. -/
  registry : Nat → BlockNumber → Option Decoder
  /-- `TimeConv`. -/
  timeConv : U16 → U32 → Timestamp × CalendarDate
  /-- `RESET_MODE`. -/
  resetMode : BitVec 1
  /-- `LIMIT_MAX`. -/
  limitMax : Nat
  /-- `CHUNK_MAX`; `none` is unbounded. -/
  chunkMax : Option Nat
  /-- `QUEUE_CAP`; `none` is unbounded. -/
  queueCap : Option Nat
  /-- `BUS_MAP`. -/
  busMap : Nat → Nat

/-- A parameter set that a block can be built with (R333): `FW_RESET` is a key of `FW_SET`, and the bounds are positive
(R7). `FW_SET` is never empty: it holds key 0. -/
structure BlockParams.Legal (b : BlockParams) : Prop where
  fwReset_known : b.fwReset ≤ b.fwOthers
  limitMax_pos : 0 < b.limitMax
  chunkMax_pos : ∀ m, b.chunkMax = some m → 0 < m
  queueCap_pos : ∀ m, b.queueCap = some m → 0 < m

/-- The parameters that one FEED works with: the decoder table of the firmware in force, the time conversion, and
the two bounds. -/
structure Params where
  decoders : BlockNumber → Option Decoder
  timeConv : U16 → U32 → Timestamp × CalendarDate
  chunkMax : Option Nat
  queueCap : Option Nat

/-- The parameters of one FEED under firmware key `fw` (R75). -/
def BlockParams.feed (b : BlockParams) (fw : Nat) : Params where
  decoders := b.registry fw
  timeConv := b.timeConv
  chunkMax := b.chunkMax
  queueCap := b.queueCap

/-- The parameters of this machine: the decided values, and opaque constants for the open ones (R7). -/
def Config.block : BlockParams where
  fwOthers := Config.fwOthers
  fwReset := Config.fwResetKey.val
  registry := Config.registry
  timeConv := Config.timeConv
  resetMode := Config.resetMode
  limitMax := Config.limitMax
  chunkMax := Config.chunkMax
  queueCap := Config.queueCap
  busMap := Config.busMap

/-- The parameters of this machine's FEED under firmware key `fw`. -/
def Config.params (fw : Nat) : Params := Config.block.feed fw

end Sys2Proof
end

