-- ==== Sys2Proof/Machine/Crc.lean ====
section
/-! DEFINITION. The checksum function, CRC-16/XMODEM (R130 to R134). -/

namespace Sys2Proof.Machine

/-- One shift of the register: left by one, the polynomial in when the bit shifted out was 1 (R131). -/
def crcBit (r : U16) : U16 := if r.getLsbD 15 then (r <<< 1) ^^^ Config.crcPoly else r <<< 1

/-- `n` shifts. -/
def crcShift : Nat → U16 → U16
  | 0, r => r
  | n + 1, r => crcShift n (crcBit r)

/-- One byte enters at bits 15:8 and is shifted through, most significant bit first (R131). -/
def crcByte (r : U16) (b : Byte) : U16 := crcShift 8 (r ^^^ (b.setWidth 16 <<< 8))

/-- `CRC16(s)`: the bytes in ascending offset from register 0, no reflection, no final exclusive-or (R131). -/
def crc16 (s : List Byte) : U16 := s.foldl crcByte Config.crcInit

end Sys2Proof.Machine
end

