-- ==== Sys2Proof/Syntax.lean ====
section
/-! DEFINITION. The operations of the block, one constructor of `Instr` per row of spec/opcode_table.json, with
their operands; and what the host's port carries (R106, R273). -/

namespace Sys2Proof

/-- The type and the optional sentinel of one body field of a layout (R186 to R193). The sentinel is a property of
the field, compared on the raw bits of the field's width. -/
inductive FieldKind where
  | u8 (sentinel : Option (BitVec 8))
  | u16 (sentinel : Option (BitVec 16))
  | u32 (sentinel : Option (BitVec 32))
  | i8 (sentinel : Option (BitVec 8))
  | i16 (sentinel : Option (BitVec 16))
  | i32 (sentinel : Option (BitVec 32))
  | f32 (sentinel : Option (BitVec 32))
  | f64 (sentinel : Option (BitVec 64))
  deriving DecidableEq, Repr

/-- One entry of a body layout (R199): name, byte offset, type with sentinel, first revision that has it. -/
structure FieldSpec where
  name : String
  off : Nat
  kind : FieldKind
  since : BlockRevision
  deriving DecidableEq, Repr

/-- The five kinds of row of the opcode table: its column "format", reserved words apart. -/
inductive Format where
  | command
  | reserved
  | frame
  | internal
  | pseudo
  deriving DecidableEq, Repr

/-- The operations. A byte sequence operand is a list of bytes in wire order. -/
inductive Instr where
  -- Host commands (R107).
  | feed (chunk : List Byte)
  | drain
  | setMode (m : BitVec 1)
  | setLimit (n : U16)
  | setFw (k : Nat)
  | getMode
  | getLimit
  | getFw
  | getBuf
  | getStatus
  | reset
  -- Reserved command words (R108).
  | reserved0
  | reservedB
  | reservedC
  | reservedD
  | reservedE
  | reservedHi (h o : BitVec 4)
  -- The frame format (R90): the fields after the marker, as they stand on the wire, and the bytes after them.
  | frame (crc : U16) (num : BlockNumber) (rev : BlockRevision) (len : U16) (tow : U32) (wnc : U16) (body : List Byte)
  -- Internal operations.
  | crc16 (s : List Byte)
  | hdrDecode (s : List Byte)
  | timeDecode (f : List Byte)
  | sentN (n : Nat) (raw sentinel : BitVec n)
  | extract (s : List Byte)
  | regDecode (num : BlockNumber) (rev : BlockRevision) (body : List Byte)
  | find (p : Nat)
  | lastmark
  | fldU8 (body : List Byte) (off : Nat) (sentinel : Option (BitVec 8))
  | fldU16 (body : List Byte) (off : Nat) (sentinel : Option (BitVec 16))
  | fldU32 (body : List Byte) (off : Nat) (sentinel : Option (BitVec 32))
  | fldI8 (body : List Byte) (off : Nat) (sentinel : Option (BitVec 8))
  | fldI16 (body : List Byte) (off : Nat) (sentinel : Option (BitVec 16))
  | fldI32 (body : List Byte) (off : Nat) (sentinel : Option (BitVec 32))
  | fldF32 (body : List Byte) (off : Nat) (sentinel : Option (BitVec 32))
  | fldF64 (body : List Byte) (off : Nat) (sentinel : Option (BitVec 64))
  | fldBits (w : Nat) (v : BitVec w) (lo width : Nat)
  | fldPad (body : List Byte) (endOff : Nat)
  | decodeLayout (blockName : String) (fields : List FieldSpec) (maxrev rev : BlockRevision) (body : List Byte)
  -- Pseudo-operations (R110).
  | parse (chunk : List Byte)
  | setModeAcc
  | setModeRep
  | flush
  | feedb (b : Byte)
  deriving DecidableEq, Repr

/-- The kind of row an operation comes from. -/
def Instr.format (i : Instr) : Format :=
  match i with
  | .feed _ | .drain | .setMode _ | .setLimit _ | .setFw _ => .command
  | .getMode | .getLimit | .getFw | .getBuf | .getStatus | .reset => .command
  | .reserved0 | .reservedB | .reservedC | .reservedD | .reservedE | .reservedHi _ _ => .reserved
  | .frame _ _ _ _ _ _ _ => .frame
  | .crc16 _ | .hdrDecode _ | .timeDecode _ | .sentN _ _ _ | .extract _ | .regDecode _ _ _ => .internal
  | .find _ | .lastmark => .internal
  | .fldU8 _ _ _ | .fldU16 _ _ _ | .fldU32 _ _ _ | .fldI8 _ _ _ | .fldI16 _ _ _ | .fldI32 _ _ _ => .internal
  | .fldF32 _ _ _ | .fldF64 _ _ _ | .fldBits _ _ _ _ | .fldPad _ _ | .decodeLayout _ _ _ _ _ => .internal
  | .parse _ | .setModeAcc | .setModeRep | .flush | .feedb _ => .pseudo

/-- One thing the host presents to the block, whole: operations are issued one at a time (R71, R72). The binding
is the spec's own or this model's choice, log entry 1. -/
inductive Transaction where
  /-- A command word and the operand bytes that follow it, up to the port's end mark (R106). -/
  | command (bytes : List Byte)
  /-- One chunk on the byte stream port, up to its `last` mark: the block performs FEED (R273). -/
  | stream (chunk : List Byte)
  /-- The hardware reset input (R270). -/
  | resetInput
  deriving DecidableEq, Repr

/-- Why a transaction carries no operation. The spec gives such bytes no meaning; log entry 1. -/
inductive DecodeError where
  /-- A command transaction without a command word. -/
  | emptyCommand
  /-- A command word followed by more or fewer operand bytes than R106 gives the operation. -/
  | operandLength
  deriving DecidableEq, Repr

end Sys2Proof
end

