-- ==== Sys2Proof/Decode.lean ====
section
/-! DEFINITION. Byte order (R62, R99), the decoder of what the host presents (R106 to R108, R90, R273), and after
it the encoder written from the same tables. -/

namespace Sys2Proof

/-! ### Byte order: little-endian, the lower offset the less significant (R62) -/

/-- The unsigned little-endian value of a byte sequence of any length (R64, R196). -/
def leNat : List Byte → Nat
  | [] => 0
  | b :: bs => b.toNat + 256 * leNat bs

/-- The `n` bytes of `v`, least significant first: `leN(v)` of R111. -/
def leBytes : Nat → Nat → List Byte
  | 0, _ => []
  | n + 1, v => BitVec.ofNat 8 v :: leBytes n (v / 256)

/-- `b0 | b1 << 8` (R99). -/
def u16le (b0 b1 : Byte) : U16 := b1 ++ b0

/-- `b0 | b1 << 8 | b2 << 16 | b3 << 24` (R99). -/
def u32le (b0 b1 b2 b3 : Byte) : U32 := b3 ++ b2 ++ b1 ++ b0

/-- `le16(v)` of R111. -/
def bytes16 (v : U16) : List Byte := [v.extractLsb' 0 8, v.extractLsb' 8 8]

/-- `le32(v)` of R111. -/
def bytes32 (v : U32) : List Byte := [v.extractLsb' 0 8, v.extractLsb' 8 8, v.extractLsb' 16 8, v.extractLsb' 24 8]

/-! ### The packed ID (R93) -/

/-- `blockNumber = byte[4] | ((byte[5] & 0x1F) << 8)` (R99). -/
def idNumber (b4 b5 : Byte) : BlockNumber := b4.setWidth 13 ||| ((b5 &&& 0x1F).setWidth 13 <<< 8)

/-- `blockRevision = (byte[5] & 0xE0) >> 5` (R99). -/
def idRevision (b5 : Byte) : BlockRevision := ((b5 &&& 0xE0) >>> 5).setWidth 3

/-- `id = num | rev << 13` (R111). -/
def packId (num : BlockNumber) (rev : BlockRevision) : U16 := num.setWidth 16 ||| (rev.setWidth 16 <<< 13)

/-! ### The frame format (R90) -/

/-- The frame bytes that the checksum covers: packed ID, length, time of week, week number, body (R92, R133). -/
def frameRest (num : BlockNumber) (rev : BlockRevision) (len : U16) (tow : U32) (wnc : U16) (body : List Byte) : List Byte :=
  bytes16 (packId num rev) ++ bytes16 len ++ bytes32 tow ++ bytes16 wnc ++ body

/-- The wire bytes of a frame with the given field values (R90, R98). -/
def frameBytes (crc : U16) (num : BlockNumber) (rev : BlockRevision) (len : U16) (tow : U32) (wnc : U16)
    (body : List Byte) : List Byte :=
  [Config.sync0, Config.sync1] ++ bytes16 crc ++ frameRest num rev len tow wnc body

/-! ### The firmware key's operand (R106, D5) -/

/-- `ceil(log2 n)`. -/
def ceilLog2 (n : Nat) : Nat := if n ≤ 1 then 0 else Nat.log2 (n - 1) + 1

/-- `FW_W`: enough bits to number `FW_SET`, at least 1 (R25). -/
def fwWidth : Nat := max 1 (ceilLog2 (Config.fwOthers + 1))

/-- `ceil(FW_W / 8)`, the operand bytes of SET_FW (R106). -/
def fwBytes : Nat := (fwWidth + 7) / 8

/-! ### The decoder -/

/-- An operation without an operand has no operand bytes. -/
def bare (i : Instr) : List Byte → Except DecodeError Instr
  | [] => .ok i
  | _ :: _ => .error .operandLength

/-- SET_MODE: one operand byte, of which only bit 0 is read (R106). -/
def decodeSetMode : List Byte → Except DecodeError Instr
  | [b] => .ok (.setMode (b.setWidth 1))
  | _ => .error .operandLength

/-- SET_LIMIT: two operand bytes, little-endian (R106). -/
def decodeSetLimit : List Byte → Except DecodeError Instr
  | [b0, b1] => .ok (.setLimit (u16le b0 b1))
  | _ => .error .operandLength

/-- SET_FW: exactly `n` operand bytes, little-endian, `n` being `ceil(FW_W / 8)` (R106). The key is not cut to `FW_W`
bits: a value outside `FW_SET` is an unknown key. Log entry 1. -/
def decodeSetFw (n : Nat) (ops : List Byte) : Except DecodeError Instr :=
  if ops.length = n then .ok (.setFw (leNat ops)) else .error .operandLength

/-- The command word `w` with the operand bytes after it (R107, R108). A reserved word is decided before any operand
is looked at (R296). -/
def decodeWord (w : Byte) (ops : List Byte) : Except DecodeError Instr :=
  if w.extractLsb' 4 4 ≠ 0 then .ok (.reservedHi (w.extractLsb' 4 4) (w.extractLsb' 0 4))
  else match w.toNat with
    | 0x1 => .ok (.feed ops)
    | 0x2 => bare .drain ops
    | 0x3 => decodeSetMode ops
    | 0x4 => decodeSetLimit ops
    | 0x5 => decodeSetFw fwBytes ops
    | 0x6 => bare .getMode ops
    | 0x7 => bare .getLimit ops
    | 0x8 => bare .getFw ops
    | 0x9 => bare .getBuf ops
    | 0xA => bare .getStatus ops
    | 0xB => .ok .reservedB
    | 0xC => .ok .reservedC
    | 0xD => .ok .reservedD
    | 0xE => .ok .reservedE
    | 0xF => bare .reset ops
    | _ => .ok .reserved0

/-- A command transaction: the command word first (R106). -/
def decodeCommand : List Byte → Except DecodeError Instr
  | [] => .error .emptyCommand
  | w :: ops => decodeWord w ops

/-- A chunk on the stream port. One that has the frame format, the marker and the twelve bytes after it, is read as
FRAME, its fields as R99 assembles them; every other chunk is a FEED of its bytes (R273). -/
def decodeStream : List Byte → Instr
  | b0 :: b1 :: b2 :: b3 :: b4 :: b5 :: b6 :: b7 :: b8 :: b9 :: b10 :: b11 :: b12 :: b13 :: body =>
    if b0 = Config.sync0 ∧ b1 = Config.sync1 then
      .frame (u16le b2 b3) (idNumber b4 b5) (idRevision b5) (u16le b6 b7) (u32le b8 b9 b10 b11) (u16le b12 b13) body
    else .feed (b0 :: b1 :: b2 :: b3 :: b4 :: b5 :: b6 :: b7 :: b8 :: b9 :: b10 :: b11 :: b12 :: b13 :: body)
  | c => .feed c

/-- The operation a transaction asks for. Total; rejects by name. -/
def decode : Transaction → Except DecodeError Instr
  | .command bytes => decodeCommand bytes
  | .stream chunk => .ok (decodeStream chunk)
  | .resetInput => .ok .reset

/-! ### The encoder -/

/-- The transactions that ask for an operation (R107, R108, R111); a pseudo-operation is its expansion (R110), an
internal operation has no command word and none. The block itself never encodes. -/
def encode : Instr → List Transaction
  | .feed c => [.command (0x01 :: c)]
  | .drain => [.command [0x02]]
  | .setMode m => [.command [0x03, m.setWidth 8]]
  | .setLimit n => [.command (0x04 :: bytes16 n)]
  | .setFw k => [.command (0x05 :: leBytes fwBytes k)]
  | .getMode => [.command [0x06]]
  | .getLimit => [.command [0x07]]
  | .getFw => [.command [0x08]]
  | .getBuf => [.command [0x09]]
  | .getStatus => [.command [0x0A]]
  | .reset => [.command [0x0F]]
  | .reserved0 => [.command [0x00]]
  | .reservedB => [.command [0x0B]]
  | .reservedC => [.command [0x0C]]
  | .reservedD => [.command [0x0D]]
  | .reservedE => [.command [0x0E]]
  | .reservedHi h o => [.command [h ++ o]]
  | .frame crc num rev len tow wnc body => [.stream (frameBytes crc num rev len tow wnc body)]
  | .crc16 _ | .hdrDecode _ | .timeDecode _ | .sentN _ _ _ | .extract _ | .regDecode _ _ _ => []
  | .find _ | .lastmark => []
  | .fldU8 _ _ _ | .fldU16 _ _ _ | .fldU32 _ _ _ | .fldI8 _ _ _ | .fldI16 _ _ _ | .fldI32 _ _ _ => []
  | .fldF32 _ _ _ | .fldF64 _ _ _ | .fldBits _ _ _ _ | .fldPad _ _ | .decodeLayout _ _ _ _ _ => []
  | .parse c => [.command (0x01 :: c), .command [0x02]]
  | .setModeAcc => [.command [0x03, 0x01]]
  | .setModeRep => [.command [0x03, 0x00]]
  | .flush => [.command [0x02]]
  | .feedb b => [.command [0x01, b]]

/-- What a pseudo-operation stands for, operation by operation (R110); every other operation stands for itself. -/
def expansion : Instr → List Instr
  | .parse c => [.feed c, .drain]
  | .setModeAcc => [.setMode 1]
  | .setModeRep => [.setMode 0]
  | .flush => [.drain]
  | .feedb b => [.feed [b]]
  | i => [i]

/-! ### Words of the opcode table -/

/-- The operand bytes that follow a command word, as many as R106 gives the operation, all zero: one for SET_MODE,
two for SET_LIMIT, `fwBytes` for SET_FW, none else. -/
def zeroOperand (w : Byte) : List Byte :=
  match w.toNat with
  | 0x3 => [0]
  | 0x4 => [0, 0]
  | 0x5 => List.replicate fwBytes 0
  | _ => []

/-- The transaction that carries the table's word `w` of `nbits` bits, first byte in the least significant bits. A
word that begins with the two marker bytes is a chunk of the stream port, of fourteen bytes at least; every other
word goes to the command port. -/
def wordTransaction (nbits w : Nat) : Transaction :=
  if 16 ≤ nbits ∧ w % 0x10000 = 0x4024 then .stream (leBytes (max 14 (nbits / 8)) w)
  else if nbits ≤ 8 then .command (BitVec.ofNat 8 w :: zeroOperand (BitVec.ofNat 8 w))
  else .command (leBytes (nbits / 8) w)

/-- The operation the decoder reads from a word of the opcode table. -/
def decodeTableWord (nbits w : Nat) : Option Instr :=
  match decode (wordTransaction nbits w) with
  | .ok i => some i
  | .error _ => none

end Sys2Proof
end

