-- ==== Sys2Proof/Machine/State.lean ====
section
/-! DEFINITION. The state of the block as plain data: the persistent record of R20, the registers of one FEED (R28)
and of one candidate (R29), and what stands at the host's port; the records the block produces (R30 to R33); the
reasons a step can stop; the state after reset (R43). -/

namespace Sys2Proof.Machine

/-! ### The records the block produces -/

/-- RawHeader (R31). -/
structure RawHeader where
  sync : Byte × Byte
  crc : U16
  blockNumber : BlockNumber
  blockRevision : BlockRevision
  length : U16
  deriving DecidableEq, Repr

/-- TimeInfo (R32): `none` is "unknown". -/
structure TimeInfo where
  tow : Option U32
  wnc : Option U16
  timestamp : Option Timestamp
  date : Option CalendarDate
  deriving DecidableEq, Repr

/-- Frame (R30): one header, one time, one body result, and the exact raw bytes it was decoded from. -/
structure Frame where
  header : RawHeader
  time : TimeInfo
  result : BodyResult
  raw : List Byte
  deriving DecidableEq, Repr

/-! ### Codes (R112) -/

/-- The verdict on one candidate (R39). -/
inductive Status where
  | ok
  | missingBytes
  | errorLength
  | errorCrc
  deriving DecidableEq, Repr

/-- The named state of the demultiplexer (R26). -/
inductive Phase where
  | idle
  | scanning
  | missingBytes
  | drained
  deriving DecidableEq, Repr

/-- The configuration errors, class E (R290, R291). -/
inductive ConfigError where
  | eLimit
  | eFw
  | eCmd
  | eChunk
  deriving DecidableEq, Repr

/-- What EXTRACT returns (R160): a complete Frame with `OK`, the header alone with the other statuses (R169). -/
inductive Extracted where
  | ok (frame : Frame)
  | missingBytes (header : RawHeader)
  | errorLength (header : RawHeader)
  | errorCrc (header : RawHeader)
  deriving DecidableEq, Repr

/-! ### What the block answers -/

/-- The response of a host operation (R272): `ok`, the result it has, or an error code. -/
inductive Response where
  | ok
  | frames (fs : List Frame)
  | mode (m : BitVec 1)
  | limit (n : U16)
  | key (k : Nat)
  | bytes (b : List Byte)
  | status (phase : Phase) (buflen qlen : Nat)
  | error (e : ConfigError)
  deriving DecidableEq, Repr

/-- The result of an internal operation run on its own. -/
inductive Result where
  | crc (v : U16)
  | header (h : RawHeader)
  | time (t : TimeInfo)
  | sent (n : Nat) (v : Option (BitVec n))
  | extracted (x : Extracted)
  | body (b : BodyResult)
  | index (i : Option Nat)
  | field (v : FieldValue)
  | bits (v : Nat)
  | padding (p : Option Nat)
  deriving DecidableEq, Repr

/-! ### The transient registers -/

/-- The registers of one FEED (R28). An index is a natural number: `CHUNK_MAX` is unbounded (D27). -/
structure ScanRegs where
  /-- `LASTMARK`: `none` when `BUF` holds no marker. -/
  lastmark : Option Nat
  pivot : Nat
  /-- `INDEX`: `none` before the first candidate. -/
  index : Option Nat
  newq : List Frame
  deriving DecidableEq, Repr

/-- The thirteen registers of one candidate (R29). `none` is the spec's own "holds no value" (R43, R44). -/
structure Datapath where
  hSync : Option U16
  hCrc : Option U16
  hId : Option U16
  hNum : Option BlockNumber
  hRev : Option BlockRevision
  hLen : Option U16
  bodylen : Option U16
  crcacc : Option U16
  tTow : Option U32
  tWnc : Option U16
  towV : Option (BitVec 1)
  wncV : Option (BitVec 1)
  status : Option Status
  deriving DecidableEq, Repr

/-- No register holds a value (R43, R44). -/
def Datapath.empty : Datapath where
  hSync := none
  hCrc := none
  hId := none
  hNum := none
  hRev := none
  hLen := none
  bodylen := none
  crcacc := none
  tTow := none
  tWnc := none
  towV := none
  wncV := none
  status := none

/-! ### The state -/

/-- The whole state. -/
structure State where
  /-- `BUF`, the retained buffer (R21): the byte at offset `a` is `buf[a]?`. -/
  buf : List Byte
  /-- `Q`, the output queue, oldest first (R22). -/
  q : List Frame
  /-- `LIMIT`, the buffer cap in bytes (R23). -/
  limit : U16
  /-- `MODE`: 1 accumulate, 0 replace (R24). -/
  mode : BitVec 1
  /-- `FW`, the number of the selected firmware key (R25, D5). -/
  fw : Nat
  /-- `PHASE` (R26). -/
  phase : Phase
  /-- `LASTMARK`, `PIVOT`, `INDEX`, `NEWQ`: `none` when no FEED runs (R28). -/
  scan : Option ScanRegs
  /-- The datapath registers (R29). -/
  dp : Datapath
  /-- The model's own: what the host has presented and the block has not yet taken, first to come first. -/
  port : List Transaction
  /-- The response port (R272): the last response, `none` before the first. -/
  resp : Option Response
  /-- The model's own: the result of the last internal operation run on its own. -/
  out : Option Result
  deriving DecidableEq, Repr

/-- A fault. -/
inductive Fault where
  /-- `Fault(QOVF)` (R302): a FEED would make `Q` longer than a finite `QUEUE_CAP`. Raised by FEED and the operations
  that are a FEED. Safe: the model stops and says nothing of the state after it. -/
  | queueOverflow
  deriving DecidableEq, Repr

/-- A refusal. -/
inductive Refusal where
  /-- An instruction without a meaning in this model. Raised by an arm of `exec`. Safe. -/
  | notModelled (mnemonic : String)
  /-- The transaction carries no operation (log entry 1). Raised by `step`. Safe: the model stops. -/
  | undecodable (e : DecodeError)
  /-- HDR.DECODE or EXTRACT on fewer than 8 bytes (R142, R170). Raised by these two run on their own. Safe: outside
  the contract, "a model refuses it". -/
  | headerTooShort
  /-- A read outside the byte sequence it is made of: TIME.DECODE on fewer than 14 bytes, a body field or the padding
  beyond the body (R64, U8). Raised by these run on their own. Safe: never issued inside the block (R66). -/
  | readOutside
  /-- FLD.BITS with a sub-field that is not inside its value (R194). Raised by FLD.BITS. Safe. -/
  | bitsOutside
  /-- The scan met an access outside the guards of R66: a bug of the model, which no FEED can reach. Raised by FEED.
  Safe: the model stops. -/
  | scanOutsideGuards
  deriving DecidableEq, Repr

/-- The state right after reset of a block with the parameters `b` (R43). -/
def State.resetWith (b : BlockParams) : State where
  buf := []
  q := []
  limit := Config.limitDefault
  mode := b.resetMode
  fw := b.fwReset
  phase := .idle
  scan := none
  dp := Datapath.empty
  port := []
  resp := none
  out := none

/-- The machine right after reset (R43). -/
def State.reset : State := State.resetWith Config.block

end Sys2Proof.Machine
end

