-- ==== Sys2Proof/Machine/Flags.lean ====
section
/-! DEFINITION. The three flags of the block (R39), the numbers of the codes (R112), and the sentinel comparison
that the validity flags and every field rest on (R147). -/

namespace Sys2Proof.Machine

/-- Two bits (R112). -/
def Status.code : Status → BitVec 2
  | .ok => 0
  | .missingBytes => 1
  | .errorLength => 2
  | .errorCrc => 3

/-- Two bits (R26). -/
def Phase.code : Phase → BitVec 2
  | .idle => 0
  | .scanning => 1
  | .missingBytes => 2
  | .drained => 3

/-- Three bits (R112). -/
def ConfigError.code : ConfigError → BitVec 3
  | .eLimit => 1
  | .eFw => 2
  | .eCmd => 3
  | .eChunk => 4

/-- The response code of an operation: 0 unless it is an error (R112). -/
def Response.code : Response → BitVec 3
  | .error e => e.code
  | .ok | .frames _ | .mode _ | .limit _ | .key _ | .bytes _ | .status _ _ _ => 0

/-- The flag `STATUS` that an extraction leaves. -/
def Extracted.status : Extracted → Status
  | .ok _ => .ok
  | .missingBytes _ => .missingBytes
  | .errorLength _ => .errorLength
  | .errorCrc _ => .errorCrc

/-- `SENT_N(raw, sentinel)` (R147). -/
def sent {n : Nat} (raw sentinel : BitVec n) : Option (BitVec n) := if raw = sentinel then none else some raw

/-- The same with an optional sentinel: a field without one passes every value (R186). -/
def sentOpt {n : Nat} (raw : BitVec n) : Option (BitVec n) → Option (BitVec n)
  | none => some raw
  | some s => sent raw s

/-- A one-bit flag. -/
def flagBit (b : Bool) : BitVec 1 := if b then 1 else 0

/-- `TOW_V` (R143). -/
def towValid (tow : U32) : BitVec 1 := flagBit (tow != Config.towSentinel)

/-- `WNC_V` (R143). -/
def wncValid (wnc : U16) : BitVec 1 := flagBit (wnc != Config.wncSentinel)

/-- The form of a declared length that a frame may have: a multiple of 4 and at least 14 (R163). -/
def lengthFormOk (len : U16) : Bool := decide (len.toNat % Config.lenAlign = 0) && decide (Config.minFrame ≤ len.toNat)

end Sys2Proof.Machine
end

