-- ==== Sys2Proof/Machine/Ops.lean ====
section
/-! DEFINITION. The named operations over the state: the five updates of `BUF` (R68), the three of `Q` (R69), the
configuration registers (R40), the two marker searches (R223, R224), the answers of an operation (R272), and the one
way a configuration error is taken (R297). No operation of a meaning writes the state except through these. -/

namespace Sys2Proof.Machine

/-! ### `BUF` as byte-addressed memory (R60) -/

/-- One byte of `BUF` at an offset; none where there is no byte. -/
def State.readByte (s : State) (a : Nat) : Option Byte := s.buf[a]?

/-- The cells from address `a` on of a byte sequence. -/
def cellsFrom : Nat → List Byte → List Host.Cell
  | _, [] => []
  | a, b :: bs => (a, b) :: cellsFrom (a + 1) bs

/-- `BUF` as address and byte pairs. -/
def State.memory (s : State) : List Host.Cell := cellsFrom 0 s.buf

/-- The cells stand at the addresses `a`, `a + 1`, … without a gap. -/
def cellsWf : Nat → List Host.Cell → Bool
  | _, [] => true
  | a, c :: cs => decide (c.1 = a) && cellsWf (a + 1) cs

/-- The one canonical form of a buffer's cells: the addresses are 0, 1, 2, … An unlisted address holds no byte. -/
def Memory.wf (m : List Host.Cell) : Bool := cellsWf 0 m

/-! ### The five updates of `BUF` (R68) -/

/-- `append(c)`. -/
def State.append (c : List Byte) (s : State) : State := { s with buf := s.buf ++ c }
/-- `replace(c)`. -/
def State.replace (c : List Byte) (s : State) : State := { s with buf := c }
/-- `clear`. -/
def State.clear (s : State) : State := { s with buf := [] }
/-- `retain_from(i)`. -/
def State.retainFrom (i : Nat) (s : State) : State := { s with buf := s.buf.drop i }
/-- The last `n` bytes of a sequence longer than `n`, otherwise all of it. -/
def lastBytes (n : Nat) (b : List Byte) : List Byte := if n < b.length then b.drop (b.length - n) else b
/-- `keep_last(n)`. -/
def State.keepLast (n : Nat) (s : State) : State := { s with buf := lastBytes n s.buf }

/-! ### The three updates of `Q` (R69) -/

/-- `Q <- Q ++ NEWQ`. -/
def State.enqueue (fs : List Frame) (s : State) : State := { s with q := s.q ++ fs }
/-- `Q <- NEWQ`. -/
def State.replaceQueue (fs : List Frame) (s : State) : State := { s with q := fs }
/-- `Q <- []`. -/
def State.emptyQueue (s : State) : State := { s with q := [] }

/-! ### The configuration registers (R40) -/

/-- `k` is in `FW_SET`: the keys are numbered 0 to `others` (R25, D5). -/
def fwKnownIn (others : Nat) : Nat → Bool
  | 0 => true
  | k + 1 => decide (k < others)

/-- `k` is in this machine's `FW_SET`. -/
def fwKnown (k : Nat) : Bool := fwKnownIn Config.block.fwOthers k

/-- `MODE <- m`. -/
def State.setMode (m : BitVec 1) (s : State) : State := { s with mode := m }
/-- `LIMIT <- n`. -/
def State.setLimit (n : U16) (s : State) : State := { s with limit := n }
/-- `FW <- k`. -/
def State.setFw (k : Nat) (s : State) : State := { s with fw := k }

/-- The control and status registers (R40). -/
inductive CtrlReg where
  | mode
  | limit
  | fw
  | phase
  | buflen
  | qlen
  deriving DecidableEq, Repr

/-- A register's number (R40). -/
def CtrlReg.number : CtrlReg → Nat
  | .mode => 0
  | .limit => 1
  | .fw => 2
  | .phase => 3
  | .buflen => 4
  | .qlen => 5

/-- The registers a host operation can write (R40); the others are read-only. -/
def CtrlReg.writable : CtrlReg → Bool
  | .mode | .limit | .fw => true
  | .phase | .buflen | .qlen => false

/-- What a register reads as. `BUFLEN` and `QLEN` are views of `BUF` and `Q` (R27). -/
def State.readCtrl (s : State) : CtrlReg → Nat
  | .mode => s.mode.toNat
  | .limit => s.limit.toNat
  | .fw => s.fw
  | .phase => s.phase.code.toNat
  | .buflen => s.buf.length
  | .qlen => s.q.length

/-- A register's address on a platform that maps the registers (R40, R76). The block itself never reads it. -/
def CtrlReg.address (b : BlockParams) (r : CtrlReg) : Nat := b.busMap r.number

/-- `IDX_W`: bits enough for an index up to `LIMIT_MAX + CHUNK_MAX`, the longest `BUF` of a FEED (R7, R77); none with an
unbounded `CHUNK_MAX`, where an index is a natural number (D27). -/
def idxWidth (b : BlockParams) : Option Nat := b.chunkMax.map fun m => ceilLog2 (b.limitMax + m + 1)

/-- The level output `Q_NONEMPTY` (R300). -/
def State.qNonempty (s : State) : Bool := decide (s.q.length ≠ 0)

/-! ### The transient registers (R28, R29) -/

/-- The scan registers as a FEED runs. -/
def State.setScan (r : ScanRegs) (s : State) : State := { s with scan := some r }
/-- `PHASE <- p`. -/
def State.setPhase (p : Phase) (s : State) : State := { s with phase := p }
/-- The datapath registers. -/
def State.setDatapath (d : Datapath) (s : State) : State := { s with dp := d }
/-- A FEED is over: no register of R28 and R29 holds a value (R44). -/
def State.endFeed (s : State) : State := { s with scan := none, dp := Datapath.empty }

/-! ### Answers -/

/-- The one response of a host operation (R272). -/
def State.respond (r : Response) (s : State) : State := { s with resp := some r }

/-- The result of an internal operation run on its own. -/
def State.produce (v : Result) (s : State) : State := { s with out := some v }

/-- A configuration error is taken: the operation returns the code "and nothing else" (R297). This is the block's one
exception entry; there is nothing saved and no vector, so there is no return either (R298): the next operation is
accepted as ever. -/
def State.raise (e : ConfigError) (s : State) : State := s.respond (.error e)

/-! ### The marker searches -/

/-- The two marker bytes stand at the front (R91); both must be inside the sequence (R223). -/
def markerHere : List Byte → Bool
  | b0 :: b1 :: _ => decide (b0 = Config.sync0) && decide (b1 = Config.sync1)
  | _ => false

/-- The marker occurs at offset `i`. -/
def markerAt (b : List Byte) (i : Nat) : Bool := markerHere (b.drop i)

/-- The least occurrence in a sequence whose first byte has offset `i`. -/
def findFrom : Nat → List Byte → Option Nat
  | _, [] => none
  | i, b :: rest => if markerHere (b :: rest) then some i else findFrom (i + 1) rest

/-- `FIND(p)` (R223). -/
def findMark (b : List Byte) (p : Nat) : Option Nat := findFrom p (b.drop p)

/-- The greatest occurrence in a sequence whose first byte has offset `i`, or `acc` when there is none. -/
def lastFrom : Nat → Option Nat → List Byte → Option Nat
  | _, acc, [] => acc
  | i, acc, b :: rest => lastFrom (i + 1) (if markerHere (b :: rest) then some i else acc) rest

/-- `LASTMARK()` (R224). -/
def lastMark (b : List Byte) : Option Nat := lastFrom 0 none b

/-! ### The outcome of an internal operation run on its own -/

/-- A result, or a refusal outside the operation's contract. -/
def yieldOr (why : Refusal) (v : Option Result) (s : State) : Host.Outcome State Fault Refusal :=
  match v with
  | some r => .next (s.produce r)
  | none => .refused why

end Sys2Proof.Machine
end

