-- ==== Sys2Proof/Machine/Checksum.lean ====
section
/-! DEFINITION. The meaning of CRC16, and the frame builder of R111 that rests on it. -/

namespace Sys2Proof.Machine

/-- `CRC16(s)`: the result is in `CRCACC`, the one register written (R130). -/
def execCrc16 (bytes : List Byte) (s : State) : Host.Outcome State Fault Refusal :=
  .next ((s.setDatapath { s.dp with crcacc := some (crc16 bytes) }).produce (.crc (crc16 bytes)))

/-- The declared length of a frame with this body: `14 + |body|` (R111). -/
def frameLength (body : List Byte) : U16 := BitVec.ofNat 16 (Config.minFrame + body.length)

/-- The well-formed frame of the given fields (R111). The block never encodes; tests and statements do. -/
def buildFrame (num : BlockNumber) (rev : BlockRevision) (tow : U32) (wnc : U16) (body : List Byte) : List Byte :=
  frameBytes (crc16 (frameRest num rev (frameLength body) tow wnc body)) num rev (frameLength body) tow wnc body

end Sys2Proof.Machine
end

