-- ==== Sys2Proof/Machine/Operands.lean ====
section
/-! DEFINITION. How an operation reads its operands out of a byte sequence: MemRead (R11, R64), the header's and the
time block's bytes (R99), and the eight body field types with their default sentinels (R186 to R196). -/

namespace Sys2Proof.Machine

/-- `MemRead(s, addr, n)`: `n` bytes from `addr`, unsigned, little-endian; defined only inside `s` (R64). -/
def memRead (s : List Byte) (addr n : Nat) : Option (BitVec (8 * n)) :=
  if addr + n ≤ s.length then some (BitVec.ofNat (8 * n) (leNat ((s.drop addr).take n))) else none

/-- The bytes `s[a .. b)` (R9). -/
def slice (s : List Byte) (a b : Nat) : List Byte := (s.take b).drop a

/-! ### Header and time block -/

/-- The header fields of the 8 bytes at the front of `s` (R140); none on fewer (R142). -/
def readHeader : List Byte → Option RawHeader
  | b0 :: b1 :: b2 :: b3 :: b4 :: b5 :: b6 :: b7 :: _ =>
    some { sync := (b0, b1), crc := u16le b2 b3, blockNumber := idNumber b4 b5, blockRevision := idRevision b5,
           length := u16le b6 b7 }
  | _ => none

/-- The raw time of week and week number at frame offsets 8 to 13 (R143); none when the frame is shorter. -/
def readTime (f : List Byte) : Option (U32 × U16) :=
  match f.drop 8 with
  | b8 :: b9 :: b10 :: b11 :: b12 :: b13 :: _ => some (u32le b8 b9 b10 b11, u16le b12 b13)
  | _ => none

/-! ### Default sentinels (R187, R191 to R193) -/

/-- `0xFF` (R187). -/
abbrev defaultU8 : Option (BitVec 8) := some 0xFF
/-- `0xFFFF` (R187). -/
abbrev defaultU16 : Option (BitVec 16) := some 0xFFFF
/-- `0xFFFFFFFF` (R187). -/
abbrev defaultU32 : Option (BitVec 32) := some 0xFFFFFFFF
/-- The most negative 8-bit value (R191, from general knowledge there). -/
abbrev defaultI8 : Option (BitVec 8) := some 0x80
/-- The most negative 16-bit value (R191). -/
abbrev defaultI16 : Option (BitVec 16) := some 0x8000
/-- The most negative 32-bit value (R191). -/
abbrev defaultI32 : Option (BitVec 32) := some 0x80000000
/-- `-2 x 10^10` in binary32 (R192). -/
abbrev defaultF32 : Option (BitVec 32) := some 0xD09502F9
/-- `-2 x 10^10` in binary64 (R193). -/
abbrev defaultF64 : Option (BitVec 64) := some 0xC212A05F20000000

/-! ### Body fields. The outer `none` is a read past the end of the body, the inner one the sentinel -/

/-- An unsigned field of `n` bytes, little-endian, its sentinel made absent (R188 to R190). -/
def readUnsigned (n : Nat) (body : List Byte) (off : Nat) (sentinel : Option (BitVec (8 * n))) :
    Option (Option (BitVec (8 * n))) :=
  (memRead body off n).map fun raw => sentOpt raw sentinel

/-- A signed field: the raw bits compared with the sentinel's pattern, then two's complement (R191). -/
def readSigned (n : Nat) (body : List Byte) (off : Nat) (sentinel : Option (BitVec (8 * n))) : Option (Option Int) :=
  (memRead body off n).map fun raw => (sentOpt raw sentinel).map BitVec.toInt

/-- `FLD.U8` (R188). -/
def fldU8 (body : List Byte) (off : Nat) (sentinel : Option (BitVec 8)) : Option FieldValue :=
  (readUnsigned 1 body off sentinel).map .u8

/-- `FLD.U16` (R189). -/
def fldU16 (body : List Byte) (off : Nat) (sentinel : Option (BitVec 16)) : Option FieldValue :=
  (readUnsigned 2 body off sentinel).map .u16

/-- `FLD.U32` (R190). -/
def fldU32 (body : List Byte) (off : Nat) (sentinel : Option (BitVec 32)) : Option FieldValue :=
  (readUnsigned 4 body off sentinel).map .u32

/-- `FLD.I8` (R191). -/
def fldI8 (body : List Byte) (off : Nat) (sentinel : Option (BitVec 8)) : Option FieldValue :=
  (readSigned 1 body off sentinel).map .i8

/-- `FLD.I16` (R191). -/
def fldI16 (body : List Byte) (off : Nat) (sentinel : Option (BitVec 16)) : Option FieldValue :=
  (readSigned 2 body off sentinel).map .i16

/-- `FLD.I32` (R191). -/
def fldI32 (body : List Byte) (off : Nat) (sentinel : Option (BitVec 32)) : Option FieldValue :=
  (readSigned 4 body off sentinel).map .i32

/-- `FLD.F32`: the bit pattern of a binary32, the sentinel known by its pattern (R192). -/
def fldF32 (body : List Byte) (off : Nat) (sentinel : Option (BitVec 32)) : Option FieldValue :=
  (readUnsigned 4 body off sentinel).map .f32

/-- `FLD.F64`: the bit pattern of a binary64 (R193). -/
def fldF64 (body : List Byte) (off : Nat) (sentinel : Option (BitVec 64)) : Option FieldValue :=
  (readUnsigned 8 body off sentinel).map .f64

/-- `FLD.BITS(v, lo, width)`: `(v >> lo) & ((1 << width) - 1)`, that is `v[lo+width-1 : lo]` (R194); none when the sub-field is not inside `v`. -/
def fldBits {w : Nat} (v : BitVec w) (lo width : Nat) : Option Nat :=
  if lo + width ≤ w then some ((v.toNat >>> lo) &&& ((1 <<< width) - 1)) else none

/-- `FLD.PAD(body, end)`: the bytes from `end` on as one little-endian natural number of any size, absent when there
are none (R196); the outer `none` when `end` is beyond the body. -/
def fldPad (body : List Byte) (endOff : Nat) : Option (Option Nat) :=
  if body.length < endOff then none
  else if endOff = body.length then some none
  else some (some (leNat (body.drop endOff)))

/-- The field operation of a field's type (R199). -/
def readField (kind : FieldKind) (body : List Byte) (off : Nat) : Option FieldValue :=
  match kind with
  | .u8 s => fldU8 body off s
  | .u16 s => fldU16 body off s
  | .u32 s => fldU32 body off s
  | .i8 s => fldI8 body off s
  | .i16 s => fldI16 body off s
  | .i32 s => fldI32 body off s
  | .f32 s => fldF32 body off s
  | .f64 s => fldF64 body off s

end Sys2Proof.Machine
end

