-- ==== Sys2Proof/Machine/Codecs.lean ====
section
/-! DEFINITION. The header codec, the time codec and the sentinel converter: HDR.DECODE, TIME.DECODE, SENT_N (R140 to
R147). -/

namespace Sys2Proof.Machine

/-- `HDR.DECODE(s)`: four fields and the two marker bytes, which it does not test (R140, R141). -/
def hdrDecode (s : List Byte) : Option RawHeader := readHeader s

/-- The registers HDR.DECODE writes (R140): `H_SYNC` has byte 0 in bits 7:0, `H_ID` is the packed ID of the two
fields. -/
def Datapath.loadHeader (h : RawHeader) (d : Datapath) : Datapath :=
  { d with
    hSync := some (u16le h.sync.1 h.sync.2), hCrc := some h.crc, hId := some (packId h.blockNumber h.blockRevision),
    hNum := some h.blockNumber, hRev := some h.blockRevision, hLen := some h.length }

/-- The TimeInfo of raw field values: each sentinel maps its field to `none`, and the conversion is called exactly
when both are known (R143, R144). -/
def timeInfo (conv : U16 → U32 → Timestamp × CalendarDate) (tow : U32) (wnc : U16) : TimeInfo :=
  { tow := sent tow Config.towSentinel
    wnc := sent wnc Config.wncSentinel
    timestamp := if towValid tow = 1 ∧ wncValid wnc = 1 then some (conv wnc tow).1 else none
    date := if towValid tow = 1 ∧ wncValid wnc = 1 then some (conv wnc tow).2 else none }

/-- `TIME.DECODE(f)` (R143). -/
def timeDecode (conv : U16 → U32 → Timestamp × CalendarDate) (f : List Byte) : Option TimeInfo :=
  (readTime f).map fun t => timeInfo conv t.1 t.2

/-- The registers TIME.DECODE writes (R143). -/
def Datapath.loadTime (t : U32 × U16) (d : Datapath) : Datapath :=
  { d with tTow := some t.1, tWnc := some t.2, towV := some (towValid t.1), wncV := some (wncValid t.2) }

/-- HDR.DECODE run on its own. -/
def execHdrDecode (bytes : List Byte) (s : State) : Host.Outcome State Fault Refusal :=
  match hdrDecode bytes with
  | some h => .next ((s.setDatapath (s.dp.loadHeader h)).produce (.header h))
  | none => .refused .headerTooShort

/-- TIME.DECODE run on its own. -/
def execTimeDecode (f : List Byte) (s : State) : Host.Outcome State Fault Refusal :=
  match readTime f with
  | some t => .next ((s.setDatapath (s.dp.loadTime t)).produce (.time (timeInfo Config.timeConv t.1 t.2)))
  | none => .refused .readOutside

/-- SENT_N run on its own (R147). -/
def execSentN (n : Nat) (raw sentinel : BitVec n) (s : State) : Host.Outcome State Fault Refusal :=
  .next (s.produce (.sent n (sent raw sentinel)))

end Sys2Proof.Machine
end

