-- ==== Sys2Proof/Machine/Layout.lean ====
section
/-! DEFINITION. A body layout as the conventions shape it: which fields a revision has, where they end, and the contract
of a layout (R195, R199). -/

namespace Sys2Proof

/-- The bytes a body field of this type takes (R199). -/
def FieldKind.size : FieldKind → Nat
  | .u8 _ | .i8 _ => 1
  | .u16 _ | .i16 _ => 2
  | .u32 _ | .i32 _ | .f32 _ => 4
  | .f64 _ => 8

namespace Machine

/-- The fields that a body of revision `r` has (R195). -/
def presentFields (fields : List FieldSpec) (r : BlockRevision) : List FieldSpec := fields.filter fun f => decide (f.since ≤ r)

/-- The offset just past the last of some fields, 0 for none (R199). -/
def fieldsEnd (fields : List FieldSpec) : Nat := fields.foldl (fun e f => max e (f.off + f.kind.size)) 0

/-- The fields are sorted by offset (R199). -/
def sortedByOffset : List FieldSpec → Bool
  | a :: b :: rest => decide (a.off ≤ b.off) && sortedByOffset (b :: rest)
  | _ => true

/-- No two fields have one name: the value of R199 maps names to fields. -/
def distinctNames (fields : List FieldSpec) : Bool := decide ((fields.map FieldSpec.name).Nodup)

/-- A field that revision `r + 1` adds stands at or beyond the end of revision `r`'s last field (R195). -/
def appendsFields (fields : List FieldSpec) : Bool :=
  fields.all fun f => decide (fieldsEnd (fields.filter fun g => decide (g.since < f.since)) ≤ f.off)

/-- Every revision up to the highest known adds one field or more (R195). -/
def revisionsGrow (fields : List FieldSpec) (maxrev : BlockRevision) : Bool :=
  (List.range maxrev.toNat).all fun r => fields.any fun f => decide (f.since.toNat = r + 1)

/-- The contract of a layout (R195, R199). -/
def layoutLegal (fields : List FieldSpec) (maxrev : BlockRevision) : Bool :=
  sortedByOffset fields && distinctNames fields && appendsFields fields && revisionsGrow fields maxrev

end Machine

end Sys2Proof
end

