-- ==== Sys2Proof/WellFormed.lean ====
section
/-! DEFINITION. Which operations are well formed: the contract each rule puts on its operands, apart from what the
machine answers with an error code (R295), which is no question of form. -/

namespace Sys2Proof

/-- The contract of each operation's operands. -/
def Instr.wellFormed (i : Instr) : Bool :=
  match i with
  | .feed _ | .drain | .setMode _ | .setLimit _ => true
  -- The key fits its operand bytes (R106).
  | .setFw k => decide (k < 256 ^ fwBytes)
  | .getMode | .getLimit | .getFw | .getBuf | .getStatus | .reset => true
  | .reserved0 | .reservedB | .reservedC | .reservedD | .reservedE => true
  -- Bits 7:4 are not all zero (R108).
  | .reservedHi h _ => decide (h ≠ 0)
  -- A well-formed frame (R101).
  | .frame crc num rev len tow wnc body =>
    decide (len.toNat = Config.minFrame + body.length) && decide (len.toNat % Config.lenAlign = 0)
      && decide (crc = Machine.crc16 (frameRest num rev len tow wnc body))
  | .crc16 _ => true
  -- At least 8 bytes (R140, R170); at least 14 (R143).
  | .hdrDecode s => decide (8 ≤ s.length)
  | .timeDecode f => decide (14 ≤ f.length)
  | .sentN _ _ _ => true
  | .extract s => decide (8 ≤ s.length)
  | .regDecode _ _ _ | .find _ | .lastmark => true
  -- The field lies inside the body (R188 to R193).
  | .fldU8 body off _ => decide (off + 1 ≤ body.length)
  | .fldU16 body off _ => decide (off + 2 ≤ body.length)
  | .fldU32 body off _ => decide (off + 4 ≤ body.length)
  | .fldI8 body off _ => decide (off + 1 ≤ body.length)
  | .fldI16 body off _ => decide (off + 2 ≤ body.length)
  | .fldI32 body off _ => decide (off + 4 ≤ body.length)
  | .fldF32 body off _ => decide (off + 4 ≤ body.length)
  | .fldF64 body off _ => decide (off + 8 ≤ body.length)
  -- A value read by FLD.U8, FLD.U16 or FLD.U32, and a sub-field inside it (R194).
  | .fldBits w _ lo width => decide (w = 8 ∨ w = 16 ∨ w = 32) && decide (lo + width ≤ w)
  | .fldPad body endOff => decide (endOff ≤ body.length)
  -- The contract of a layout (R195, R199).
  | .decodeLayout _ fields maxrev _ _ => Machine.layoutLegal fields maxrev
  | .parse _ | .setModeAcc | .setModeRep | .flush | .feedb _ => true

end Sys2Proof
end

