-- ==== Sys2Proof/Machine/Registry.lean ====
section
/-! DEFINITION. The body decoder registry and the field conventions: REG.DECODE, FLD.*, DECODE_LAYOUT (R180 to
R199). -/

namespace Sys2Proof.Machine

/-! ### Dispatch -/

/-- What an unmapped block number yields (R182). -/
def unknownResult : BodyResult := { name := Config.unknownName, body := none }

/-- `REG.DECODE(num, rev, body)` over a decoder table: the key is the block number alone (R180). -/
def regDecode (table : BlockNumber → Option Decoder) (num : BlockNumber) (rev : BlockRevision) (body : List Byte) : BodyResult :=
  match table num with
  | some d => d rev body
  | none => unknownResult

/-! ### The generic decoder of a layout (R199) -/

/-- The lower of two revisions: a higher one than the decoder knows is decoded as the highest known (R197). -/
def minRev (a b : BlockRevision) : BlockRevision := if a ≤ b then a else b

/-- A field's name with its decoded value. -/
def readSpec (body : List Byte) (f : FieldSpec) : Option (String × FieldValue) :=
  (readField f.kind body f.off).map fun v => (f.name, v)

/-- The values of some fields, in the layout's order; none when one of them cannot be read. -/
def readSpecs (body : List Byte) : List FieldSpec → Option (List (String × FieldValue))
  | [] => some []
  | f :: fs =>
    match readSpec body f, readSpecs body fs with
    | some v, some vs => some (v :: vs)
    | _, _ => none

/-- `DECODE_LAYOUT` (R199): a body shorter than its revision's fields gives no body (R198). -/
def decodeLayout (blockName : String) (fields : List FieldSpec) (maxrev rev : BlockRevision) (body : List Byte) : BodyResult :=
  let present := presentFields fields (minRev rev maxrev)
  if body.length < fieldsEnd present then { name := blockName, body := none }
  else
    match readSpecs body present, fldPad body (fieldsEnd present) with
    | some vs, some pad => { name := blockName, body := some (.layout { fields := vs, padding := pad }) }
    | _, _ => { name := blockName, body := none }

/-! ### Meanings -/

/-- REG.DECODE with the registry of `FW` (R180). -/
def execRegDecode (num : BlockNumber) (rev : BlockRevision) (body : List Byte) (s : State) : Host.Outcome State Fault Refusal :=
  .next (s.produce (.body (regDecode (Config.params s.fw).decoders num rev body)))

/-- FLD.U8 (R188). -/
def execFldU8 (body : List Byte) (off : Nat) (sentinel : Option (BitVec 8)) (s : State) : Host.Outcome State Fault Refusal :=
  yieldOr .readOutside ((fldU8 body off sentinel).map .field) s

/-- FLD.U16 (R189). -/
def execFldU16 (body : List Byte) (off : Nat) (sentinel : Option (BitVec 16)) (s : State) : Host.Outcome State Fault Refusal :=
  yieldOr .readOutside ((fldU16 body off sentinel).map .field) s

/-- FLD.U32 (R190). -/
def execFldU32 (body : List Byte) (off : Nat) (sentinel : Option (BitVec 32)) (s : State) : Host.Outcome State Fault Refusal :=
  yieldOr .readOutside ((fldU32 body off sentinel).map .field) s

/-- FLD.I8 (R191). -/
def execFldI8 (body : List Byte) (off : Nat) (sentinel : Option (BitVec 8)) (s : State) : Host.Outcome State Fault Refusal :=
  yieldOr .readOutside ((fldI8 body off sentinel).map .field) s

/-- FLD.I16 (R191). -/
def execFldI16 (body : List Byte) (off : Nat) (sentinel : Option (BitVec 16)) (s : State) : Host.Outcome State Fault Refusal :=
  yieldOr .readOutside ((fldI16 body off sentinel).map .field) s

/-- FLD.I32 (R191). -/
def execFldI32 (body : List Byte) (off : Nat) (sentinel : Option (BitVec 32)) (s : State) : Host.Outcome State Fault Refusal :=
  yieldOr .readOutside ((fldI32 body off sentinel).map .field) s

/-- FLD.F32 (R192). -/
def execFldF32 (body : List Byte) (off : Nat) (sentinel : Option (BitVec 32)) (s : State) : Host.Outcome State Fault Refusal :=
  yieldOr .readOutside ((fldF32 body off sentinel).map .field) s

/-- FLD.F64 (R193). -/
def execFldF64 (body : List Byte) (off : Nat) (sentinel : Option (BitVec 64)) (s : State) : Host.Outcome State Fault Refusal :=
  yieldOr .readOutside ((fldF64 body off sentinel).map .field) s

/-- FLD.BITS (R194). -/
def execFldBits (w : Nat) (v : BitVec w) (lo width : Nat) (s : State) : Host.Outcome State Fault Refusal :=
  yieldOr .bitsOutside ((fldBits v lo width).map .bits) s

/-- FLD.PAD (R196). -/
def execFldPad (body : List Byte) (endOff : Nat) (s : State) : Host.Outcome State Fault Refusal :=
  yieldOr .readOutside ((fldPad body endOff).map .padding) s

/-- DECODE_LAYOUT (R199). -/
def execDecodeLayout (blockName : String) (fields : List FieldSpec) (maxrev rev : BlockRevision) (body : List Byte)
    (s : State) : Host.Outcome State Fault Refusal :=
  .next (s.produce (.body (decodeLayout blockName fields maxrev rev body)))

end Sys2Proof.Machine
end

