-- ==== Sys2Proof/Machine/Extractor.lean ====
section
/-! DEFINITION. The frame extractor (R160 to R173) and the acceptance predicate it decides (R101). -/

namespace Sys2Proof.Machine

/-- The checksum over a candidate frame `f`: bytes 4 to its end (R133). -/
def frameCrc (f : List Byte) : U16 := crc16 (f.drop 4)

/-- The registers of a candidate after its header is decoded: those of the candidate before hold no value any more
(R29). -/
def candidateRegs (h : RawHeader) : Datapath := Datapath.empty.loadHeader h

/-- Steps 6 and 7 of EXTRACT on an accepted candidate `f` with header `h` (R166, R167). -/
def acceptFrame (p : Params) (h : RawHeader) (f : List Byte) (t : U32 × U16) : Frame :=
  { header := h
    time := timeInfo p.timeConv t.1 t.2
    result := regDecode p.decoders h.blockNumber h.blockRevision (f.drop Config.minFrame)
    raw := f }

/-- `EXTRACT(s)`, the tests in their normative order (R168), with the datapath registers it leaves. None on fewer than
8 bytes (R170). -/
def extract (p : Params) (s : List Byte) : Option (Extracted × Datapath) :=
  match hdrDecode s with
  | none => none
  | some h =>
    if s.length < h.length.toNat then
      some (.missingBytes h, { candidateRegs h with status := some .missingBytes })
    else if lengthFormOk h.length = false then
      some (.errorLength h, { candidateRegs h with status := some .errorLength })
    else
      let f := s.take h.length.toNat
      let d := { candidateRegs h with bodylen := some (h.length - 14), crcacc := some (frameCrc f) }
      if frameCrc f ≠ h.crc then some (.errorCrc h, { d with status := some .errorCrc })
      else
        match readTime f with
        | none => none
        | some t => some (.ok (acceptFrame p h f t), { d.loadTime t with status := some .ok })

/-- The acceptance predicate (R101): `f` is a well-formed frame. -/
def wellFormedFrame (f : List Byte) : Bool :=
  match readHeader f with
  | none => false
  | some h =>
    decide (16 ≤ f.length) && decide (h.sync = (Config.sync0, Config.sync1)) && decide (h.length.toNat = f.length)
      && decide (h.length.toNat % Config.lenAlign = 0) && decide (h.crc = frameCrc f)

/-- EXTRACT run on its own. -/
def execExtract (bytes : List Byte) (s : State) : Host.Outcome State Fault Refusal :=
  match extract (Config.params s.fw) bytes with
  | some (x, d) => .next ((s.setDatapath d).produce (.extracted x))
  | none => .refused .headerTooShort

end Sys2Proof.Machine
end

