-- ==== Sys2Proof/Machine/Demux.lean ====
section
/-! DEFINITION. The stream demultiplexer: FIND, LASTMARK, FEED, and FRAME, a chunk in the frame format (R220 to
R241). -/

namespace Sys2Proof.Machine

/-! ### Steps 2 and 3: the scan -/

/-- The registers of a FEED as step 3 begins (R222, R225). -/
def ScanRegs.start (lastmark : Option Nat) : ScanRegs := { lastmark := lastmark, pivot := 0, index := none, newq := [] }

/-- How one pass of the loop ends: on to the next pass, or stopped with what `BUF` keeps and the phase it leaves. -/
inductive Pass where
  | again (r : ScanRegs)
  | stop (buf : List Byte) (phase : Phase) (r : ScanRegs)
  deriving DecidableEq, Repr

/-- Steps 3b and 3e: `BUF <- BUF[LASTMARK..]` and stop (R227, R230). `LASTMARK` is `some` here: `INDEX` is an
occurrence. -/
def ScanRegs.retain (b : List Byte) (r : ScanRegs) : Option Pass :=
  r.lastmark.map fun m => .stop (b.drop m) .missingBytes r

/-- Step 3d: the frame joins `NEWQ` and the scan jumps over its bytes (R229). -/
def ScanRegs.accept (i : Nat) (f : Frame) (r : ScanRegs) : ScanRegs :=
  { r with newq := r.newq ++ [f], pivot := i + f.header.length.toNat }

/-- Step 3f: the scan goes on at the very next byte (R231). -/
def ScanRegs.skip (i : Nat) (r : ScanRegs) : ScanRegs := { r with pivot := i + 1 }

/-- One pass of the loop over the buffer `b`: step 3a, then 3b, then 3c and one of 3d, 3e, 3f (R225 to R231). -/
def scanPass (p : Params) (b : List Byte) (r : ScanRegs) : Option Pass :=
  match findMark b r.pivot with
  | none => some (.stop [] .drained r)
  | some i =>
    let r' := { r with index := some i }
    if b.length - i < Config.minFrame then r'.retain b
    else
      match extract p (b.drop i) with
      | none => none
      | some (.ok f, _) => some (.again (r'.accept i f))
      | some (.missingBytes _, _) => if r.lastmark = some i then r'.retain b else some (.again (r'.skip i))
      | some (.errorLength _, _) => some (.again (r'.skip i))
      | some (.errorCrc _, _) => some (.again (r'.skip i))

/-- The loop, `fuel` passes at most. Every pass that goes on raises `PIVOT` (R236), so with as many passes as `BUF` has
bytes the last of them has left no byte, and step 3a finds none: that is the case of no fuel. -/
def scanLoop (p : Params) (b : List Byte) : Nat → ScanRegs → Option (List Byte × Phase × ScanRegs)
  | 0, r => some ([], .drained, r)
  | fuel + 1, r =>
    match scanPass p b r with
    | none => none
    | some (.stop b' ph r') => some (b', ph, r')
    | some (.again r') => scanLoop p b fuel r'

/-! ### FEED -/

/-- Step 1 (R221). -/
def feedInput (c : List Byte) (s : State) : State := if s.mode = 1 then s.append c else s.replace c

/-- Step 2 and the entry of step 3: `LASTMARK` is computed once, `PIVOT` is 0, `NEWQ` is empty, and the phase is
`SCANNING`, which no host ever reads (R222, R225, R26). -/
def beginScan (s : State) : State := (s.setPhase .scanning).setScan (ScanRegs.start (lastMark s.buf))

/-- The loop has stopped with what `BUF` keeps, the phase and the registers. -/
def stopScan (e : List Byte × Phase × ScanRegs) (s : State) : State := ((s.replace e.1).setPhase e.2.1).setScan e.2.2

/-- Steps 2 and 3 (R222 to R231). -/
def feedScan (p : Params) (s : State) : Option State :=
  (scanLoop p s.buf s.buf.length (ScanRegs.start (lastMark s.buf))).map fun e => stopScan e (beginScan s)

/-- `NEWQ`. -/
def State.newFrames (s : State) : List Frame :=
  match s.scan with
  | some r => r.newq
  | none => []

/-- Step 4 (R232). -/
def feedDeliver (s : State) : State :=
  if s.mode = 1 then s.enqueue s.newFrames else s.replaceQueue s.newFrames

/-- Step 5 (R233). -/
def feedCap (s : State) : State := s.keepLast s.limit.toNat

/-- The chunk is longer than a finite `CHUNK_MAX` (R220). -/
def chunkTooLong (p : Params) (c : List Byte) : Bool :=
  match p.chunkMax with
  | some m => decide (m < c.length)
  | none => false

/-- The queue is longer than a finite `QUEUE_CAP` (R302). -/
def queueOverflows (p : Params) (q : List Frame) : Bool :=
  match p.queueCap with
  | some m => decide (m < q.length)
  | none => false

/-- FEED in full (R234), under any parameters. -/
def feedWith (p : Params) (c : List Byte) (s : State) : Host.Outcome State Fault Refusal :=
  if chunkTooLong p c then .next (s.raise .eChunk)
  else
    match feedScan p (feedInput c s) with
    | none => .refused .scanOutsideGuards
    | some s3 =>
      if queueOverflows p (feedDeliver s3).q then .fault .queueOverflow
      else .next (((feedCap (feedDeliver s3)).endFeed).respond .ok)

/-- FEED with the parameters of this machine: one registry for the whole FEED, that of the `FW` in force when it began
(R75, R184). -/
def feed (c : List Byte) (s : State) : Host.Outcome State Fault Refusal := feedWith (Config.params s.fw) c s

/-! ### Meanings -/

/-- FEED (R220, R234). -/
def execFeed (c : List Byte) (s : State) : Host.Outcome State Fault Refusal := feed c s

/-- FRAME: the wire bytes of the frame arrive as one chunk (R90, R102, R273). -/
def execFrame (crc : U16) (num : BlockNumber) (rev : BlockRevision) (len : U16) (tow : U32) (wnc : U16) (body : List Byte)
    (s : State) : Host.Outcome State Fault Refusal :=
  feed (frameBytes crc num rev len tow wnc body) s

/-- FIND over `BUF` (R223). -/
def execFind (p : Nat) (s : State) : Host.Outcome State Fault Refusal := .next (s.produce (.index (findMark s.buf p)))

/-- LASTMARK over `BUF` (R224). -/
def execLastmark (s : State) : Host.Outcome State Fault Refusal := .next (s.produce (.index (lastMark s.buf)))

end Sys2Proof.Machine
end

