-- ==== Sys2Proof/Machine/HostOps.lean ====
section
/-! DEFINITION. The host operations other than FEED, and the reserved command words (R260 to R272). -/

namespace Sys2Proof.Machine

/-- `r <- Q ; Q <- [] ; return r` (R261). -/
def drain (s : State) : State := s.emptyQueue.respond (.frames s.q)

/-- `MODE <- m` (R262). -/
def writeMode (m : BitVec 1) (s : State) : State := (s.setMode m).respond .ok

/-- A legal buffer cap: positive, and at most `LIMIT_MAX` (R263). -/
def limitLegal (max : Nat) (n : U16) : Bool := decide (n.toNat ≠ 0) && decide (n.toNat ≤ max)

/-- `if n = 0 or n > LIMIT_MAX: return E_LIMIT else: LIMIT <- n ; return ok` (R263). -/
def writeLimit (b : BlockParams) (n : U16) (s : State) : State :=
  if limitLegal b.limitMax n then (s.setLimit n).respond .ok else s.raise .eLimit

/-- `if k in FW_SET: FW <- k ; return ok else: return E_FW` (R264). -/
def writeFw (b : BlockParams) (k : Nat) (s : State) : State :=
  if fwKnownIn b.fwOthers k then (s.setFw k).respond .ok else s.raise .eFw

/-- Every piece of the block's state at its reset value (R270). What the host has yet to present stays where it is: it
is the host's. -/
def resetBlock (b : BlockParams) (s : State) : State := { State.resetWith b with port := s.port }.respond .ok

/-- DRAIN (R261). -/
def execDrain (s : State) : Host.Outcome State Fault Refusal := .next (drain s)

/-- SET_MODE (R262). -/
def execSetMode (m : BitVec 1) (s : State) : Host.Outcome State Fault Refusal := .next (writeMode m s)

/-- SET_LIMIT (R263). -/
def execSetLimit (n : U16) (s : State) : Host.Outcome State Fault Refusal :=
  .next (writeLimit Config.block n s)

/-- SET_FW (R264). -/
def execSetFw (k : Nat) (s : State) : Host.Outcome State Fault Refusal :=
  .next (writeFw Config.block k s)

/-- GET_MODE (R265). -/
def execGetMode (s : State) : Host.Outcome State Fault Refusal := .next (s.respond (.mode s.mode))

/-- GET_LIMIT (R266). -/
def execGetLimit (s : State) : Host.Outcome State Fault Refusal := .next (s.respond (.limit s.limit))

/-- GET_FW (R267). -/
def execGetFw (s : State) : Host.Outcome State Fault Refusal := .next (s.respond (.key s.fw))

/-- GET_BUF (R268). -/
def execGetBuf (s : State) : Host.Outcome State Fault Refusal := .next (s.respond (.bytes s.buf))

/-- GET_STATUS: `(PHASE, BUFLEN, QLEN)` (R269). -/
def execGetStatus (s : State) : Host.Outcome State Fault Refusal :=
  .next (s.respond (.status s.phase (s.readCtrl .buflen) (s.readCtrl .qlen)))

/-- RESET (R270). -/
def execReset (s : State) : Host.Outcome State Fault Refusal := .next (resetBlock Config.block s)

/-- Command word 0x00 (R271). -/
def execReserved0 (s : State) : Host.Outcome State Fault Refusal := .next (s.raise .eCmd)

/-- Command word 0x0B (R271). -/
def execReservedB (s : State) : Host.Outcome State Fault Refusal := .next (s.raise .eCmd)

/-- Command word 0x0C (R271). -/
def execReservedC (s : State) : Host.Outcome State Fault Refusal := .next (s.raise .eCmd)

/-- Command word 0x0D (R271). -/
def execReservedD (s : State) : Host.Outcome State Fault Refusal := .next (s.raise .eCmd)

/-- Command word 0x0E (R271). -/
def execReservedE (s : State) : Host.Outcome State Fault Refusal := .next (s.raise .eCmd)

/-- A command word with a non-zero bit in 7:4 (R271). -/
def execReservedHi (_h _o : BitVec 4) (s : State) : Host.Outcome State Fault Refusal := .next (s.raise .eCmd)

end Sys2Proof.Machine
end

