-- ==== Sys2Proof/Machine/Pseudo.lean ====
section
/-! DEFINITION. The pseudo-operations, each as its expansion (R110). -/

namespace Sys2Proof.Machine

/-- `PARSE c` is `FEED c` followed by `DRAIN`; its result is the DRAIN's. -/
def execParse (c : List Byte) (s : State) : Host.Outcome State Fault Refusal :=
  match feed c s with
  | .next s' => .next (drain s')
  | .fault r => .fault r
  | .refused r => .refused r

/-- `SET_MODE.ACC` is `SET_MODE 1`. -/
def execSetModeAcc (s : State) : Host.Outcome State Fault Refusal := .next (writeMode 1 s)

/-- `SET_MODE.REP` is `SET_MODE 0`. -/
def execSetModeRep (s : State) : Host.Outcome State Fault Refusal := .next (writeMode 0 s)

/-- `FLUSH` is `DRAIN` with the result ignored, by the host: the block answers as for DRAIN. -/
def execFlush (s : State) : Host.Outcome State Fault Refusal := .next (drain s)

/-- `FEEDB b` is `FEED` of the 1-byte chunk `b`. -/
def execFeedb (b : Byte) (s : State) : Host.Outcome State Fault Refusal := feed [b] s

end Sys2Proof.Machine
end

