-- ==== Sys2Proof/Machine/Dispatch.lean ====
section
/-! DEFINITION. The meaning of every operation, one arm each. -/

namespace Sys2Proof.Machine

def exec (i : Instr) (s : State) : Host.Outcome State Fault Refusal :=
  match i with
  | .feed c => Sys2Proof.Machine.execFeed c s
  | .drain => Sys2Proof.Machine.execDrain s
  | .setMode m => Sys2Proof.Machine.execSetMode m s
  | .setLimit n => Sys2Proof.Machine.execSetLimit n s
  | .setFw k => Sys2Proof.Machine.execSetFw k s
  | .getMode => Sys2Proof.Machine.execGetMode s
  | .getLimit => Sys2Proof.Machine.execGetLimit s
  | .getFw => Sys2Proof.Machine.execGetFw s
  | .getBuf => Sys2Proof.Machine.execGetBuf s
  | .getStatus => Sys2Proof.Machine.execGetStatus s
  | .reset => Sys2Proof.Machine.execReset s
  | .reserved0 => Sys2Proof.Machine.execReserved0 s
  | .reservedB => Sys2Proof.Machine.execReservedB s
  | .reservedC => Sys2Proof.Machine.execReservedC s
  | .reservedD => Sys2Proof.Machine.execReservedD s
  | .reservedE => Sys2Proof.Machine.execReservedE s
  | .reservedHi h o => Sys2Proof.Machine.execReservedHi h o s
  | .frame crc num rev len tow wnc body => Sys2Proof.Machine.execFrame crc num rev len tow wnc body s
  | .crc16 b => Sys2Proof.Machine.execCrc16 b s
  | .hdrDecode b => Sys2Proof.Machine.execHdrDecode b s
  | .timeDecode f => Sys2Proof.Machine.execTimeDecode f s
  | .sentN n raw sentinel => Sys2Proof.Machine.execSentN n raw sentinel s
  | .extract b => Sys2Proof.Machine.execExtract b s
  | .regDecode num rev body => Sys2Proof.Machine.execRegDecode num rev body s
  | .find p => Sys2Proof.Machine.execFind p s
  | .lastmark => Sys2Proof.Machine.execLastmark s
  | .fldU8 body off sentinel => Sys2Proof.Machine.execFldU8 body off sentinel s
  | .fldU16 body off sentinel => Sys2Proof.Machine.execFldU16 body off sentinel s
  | .fldU32 body off sentinel => Sys2Proof.Machine.execFldU32 body off sentinel s
  | .fldI8 body off sentinel => Sys2Proof.Machine.execFldI8 body off sentinel s
  | .fldI16 body off sentinel => Sys2Proof.Machine.execFldI16 body off sentinel s
  | .fldI32 body off sentinel => Sys2Proof.Machine.execFldI32 body off sentinel s
  | .fldF32 body off sentinel => Sys2Proof.Machine.execFldF32 body off sentinel s
  | .fldF64 body off sentinel => Sys2Proof.Machine.execFldF64 body off sentinel s
  | .fldBits w v lo width => Sys2Proof.Machine.execFldBits w v lo width s
  | .fldPad body endOff => Sys2Proof.Machine.execFldPad body endOff s
  | .decodeLayout name fields maxrev rev body => Sys2Proof.Machine.execDecodeLayout name fields maxrev rev body s
  | .parse c => Sys2Proof.Machine.execParse c s
  | .setModeAcc => Sys2Proof.Machine.execSetModeAcc s
  | .setModeRep => Sys2Proof.Machine.execSetModeRep s
  | .flush => Sys2Proof.Machine.execFlush s
  | .feedb b => Sys2Proof.Machine.execFeedb b s

end Sys2Proof.Machine
end

