-- ==== Sys2Proof/Machine/Port.lean ====
section
/-! DEFINITION. What a step fetches: the transaction at the port, decoded. -/

namespace Sys2Proof.Machine

/-- The transactions still to be taken. -/
def State.setPort (ts : List Transaction) (s : State) : State := { s with port := ts }

/-- The operation of a transaction, or the refusal of one that carries none. -/
def fetched (t : Transaction) : Except Refusal Instr :=
  match decode t with
  | .ok i => .ok i
  | .error e => .error (.undecodable e)

end Sys2Proof.Machine
end

