-- ==== Sys2Proof/Machine/Step.lean ====
section
/-! DEFINITION. One step of the block: the next transaction at the port is taken, decoded and run, whole (R5, R71,
R72). -/

namespace Sys2Proof.Machine

/-- With nothing at the port the block is quiescent and holds its whole state (R303). -/
def step (s : State) : Host.Outcome State Fault Refusal :=
  match s.port with
  | [] => .next s
  | t :: rest =>
    match fetched t with
    | .ok i => exec i (s.setPort rest)
    | .error r => .refused r

/-- `s` with the table's word as the transaction that the next step takes. It stands for the host presenting one
operation. -/
def State.withFetchWord (s : State) (nbits w : Nat) : State := s.setPort (wordTransaction nbits w :: s.port)

end Sys2Proof.Machine
end

