-- ==== Sys2Proof/Safety.lean ====
section
/-! DEFINITION. The terms the statements use: what the scan of one FEED does, as the rules tell it (R225 to R231); a
queued frame is a validated one (R35, R101, R237); the invariant of the whole state between operations (R23, R25, R26,
R28, R35, R238). -/

namespace Sys2Proof.Machine

/-! ### Operands, as the rules write them -/

/-- `s[off] | s[off+1] << 8 | …`, `n` bytes: the sum of R64. Only read where `off + n <= |s|`. -/
def bytesValue (s : List Byte) (off n : Nat) : Nat :=
  ((List.range n).map fun k => (s.getD (off + k) 0).toNat * 2 ^ (8 * k)).sum

/-- The chunk of an operation that is a FEED (R90, R110, R220); none of any other. -/
def fedChunk (i : Instr) : Option (List Byte) :=
  match i with
  | .feed c | .parse c => some c
  | .frame crc num rev len tow wnc body => some (frameBytes crc num rev len tow wnc body)
  | .feedb b => some [b]
  | _ => none

/-- `BUF` as step 1 of a FEED leaves it (R221). -/
def State.joined (s : State) (c : List Byte) : List Byte := if s.mode = 1 then s.buf ++ c else c

/-- The Frame that a FEED under the parameters `p` makes of the well-formed frame `f` (R166, R167). -/
def Frame.DecodedFrom (p : Params) (f : List Byte) (fr : Frame) : Prop :=
  fr.raw = f ∧ readHeader f = some fr.header ∧ timeDecode p.timeConv f = some fr.time
    ∧ fr.result = regDecode p.decoders fr.header.blockNumber fr.header.blockRevision (f.drop Config.minFrame)

/-- The marker occurs in `f` nowhere below `k` but at offset 0 (R239). -/
def NoInnerMarker (f : List Byte) (k : Nat) : Prop := ∀ i, markerAt (f.take k) i = true → i = 0

/-- `f` nests no frame: no well-formed frame stands inside it behind its first byte (R239). -/
def NestsNoFrame (f : List Byte) : Prop :=
  ∀ a n, 0 < a → a + n ≤ f.length → wellFormedFrame ((f.drop a).take n) = false

/-! ### The scan, rule by rule -/

/-- `i` is the least occurrence of the marker at or after `p` (R223). -/
def FirstMark (b : List Byte) (p i : Nat) : Prop :=
  p ≤ i ∧ markerAt b i = true ∧ ∀ j, p ≤ j → j < i → markerAt b j = false

/-- `m` is the last occurrence of the marker (R224). -/
def FinalMark (b : List Byte) (m : Nat) : Prop := markerAt b m = true ∧ ∀ j, m < j → markerAt b j = false

/-- `Scans p b pivot newq kept ph out`: the loop of step 3 over the buffer `b`, at `PIVOT` with `NEWQ`, stops with
`kept` in `BUF`, the phase `ph`, and `NEWQ` grown to `out`. One constructor for each of 3a, 3b, 3d, 3e, 3f. No bound on
the number of passes. -/
inductive Scans (p : Params) (b : List Byte) : Nat → List Frame → List Byte → Phase → List Frame → Prop where
  /-- 3a: no marker is left, `BUF` is cleared (R226). -/
  | drained {pivot : Nat} {newq : List Frame} :
      (∀ j, pivot ≤ j → markerAt b j = false) → Scans p b pivot newq [] .drained newq
  /-- 3b: fewer than 14 bytes from the marker on, `BUF` is kept from its last marker (R227). -/
  | short {pivot i m : Nat} {newq : List Frame} :
      FirstMark b pivot i → b.length - i < 14 → FinalMark b m → Scans p b pivot newq (b.drop m) .missingBytes newq
  /-- 3d: the candidate is a frame, the scan goes on behind it (R229). -/
  | accept {pivot i : Nat} {newq out : List Frame} {kept : List Byte} {ph : Phase} {f : Frame} {d : Datapath} :
      FirstMark b pivot i → 14 ≤ b.length - i → extract p (b.drop i) = some (.ok f, d) →
      Scans p b (i + f.header.length.toNat) (newq ++ [f]) kept ph out → Scans p b pivot newq kept ph out
  /-- 3e: the last candidate is not all there, `BUF` is kept from it (R230). -/
  | wait {pivot i : Nat} {newq : List Frame} {h : RawHeader} {d : Datapath} :
      FirstMark b pivot i → 14 ≤ b.length - i → extract p (b.drop i) = some (.missingBytes h, d) → FinalMark b i →
      Scans p b pivot newq (b.drop i) .missingBytes newq
  /-- 3f: the candidate is none, the scan goes on at the next byte (R231). -/
  | skip {pivot i : Nat} {newq out : List Frame} {kept : List Byte} {ph : Phase} {x : Extracted} {d : Datapath} :
      FirstMark b pivot i → 14 ≤ b.length - i → extract p (b.drop i) = some (x, d) → x.status ≠ .ok →
      ¬(x.status = .missingBytes ∧ FinalMark b i) → Scans p b (i + 1) newq kept ph out → Scans p b pivot newq kept ph out

/-! ### Between operations -/

/-- A frame the extractor accepted: its raw bytes are a well-formed frame (R101), its header and time are those of the
raw bytes (R99, R143), and its body result is that of a registry of `FW_SET` (R180). -/
structure Frame.Valid (f : Frame) : Prop where
  raw_wellFormed : wellFormedFrame f.raw = true
  header_read : readHeader f.raw = some f.header
  time_read : timeDecode Config.timeConv f.raw = some f.time
  result_decoded : ∃ k, fwKnown k = true ∧
    f.result = regDecode (Config.registry k) f.header.blockNumber f.header.blockRevision (f.raw.drop Config.minFrame)

/-- What holds between operations. -/
structure State.Inv (s : State) : Prop where
  /-- `LIMIT` never holds 0 (R23). -/
  limit_pos : s.limit.toNat ≠ 0
  /-- `FW` is a key of `FW_SET` (R25). -/
  fw_known : fwKnown s.fw = true
  /-- The host never reads `SCANNING` (R26). -/
  not_scanning : s.phase ≠ .scanning
  /-- The registers of a FEED hold no value (R28). -/
  scan_none : s.scan = none
  /-- The datapath registers hold no value (R29, R44). -/
  dp_empty : s.dp = Datapath.empty
  /-- `BUF` holds a marker at its front or none at all (R238). -/
  marker_front : ∀ i, markerAt s.buf i = true → i = 0
  /-- Bytes are retained only in the phase `MISSING_BYTES` (R238). -/
  buf_empty : s.phase ≠ .missingBytes → s.buf = []
  /-- The largest retained buffer is 65534 bytes (R230, R238). -/
  buf_bound : s.buf.length ≤ 65534
  /-- Every queued frame was validated (R35 I-1 and I-2). -/
  queue_valid : ∀ f ∈ s.q, f.Valid

end Sys2Proof.Machine
end

