-- ==== Sys2Proof/Certificates/Slice0/Obligations.lean ====
section
/-! DEFINITION. The statements for the provers. Each docstring names the rule of spec/ that the statement formalises, or
the log entry where a clause is the model's own choice. -/

section

open Sys2Proof Sys2Proof.Machine

/-! ### Host operations -/

/-- R261, R70: command word 0x2; DRAIN answers the queue, oldest first, and empties it; it writes nothing else; a second
one answers no frame. -/
def Obligations.DrainReturnsTheQueue : Prop :=
  decode (.command [0x02]) = .ok .drain ∧
  ∀ s : State, ∃ t, exec .drain s = .next t ∧ t = { s with q := [], resp := some (.frames s.q) } ∧
    exec .drain t = .next { t with resp := some (.frames []) }

/-- R262: command word 0x3, bit 0 of its operand byte; SET_MODE writes `MODE` and nothing else, for both values; GET_MODE then reads it, and step 1 of the next FEED
goes by it. -/
def Obligations.SetModeWritesMode : Prop :=
  (∀ b : Byte, decode (.command [0x03, b]) = .ok (.setMode (b.extractLsb' 0 1))) ∧
  ∀ (m : BitVec 1) (s : State), ∃ t, exec (.setMode m) s = .next t ∧ t = { s with mode := m, resp := some .ok } ∧
    exec .getMode t = .next { t with resp := some (.mode m) } ∧
    ∀ c, (feedInput c t).buf = if m = 1 then s.buf ++ c else c

/-- R263: command word 0x4, two operand bytes, little-endian; a positive cap up to `LIMIT_MAX` is written to `LIMIT` and `BUF` is not shortened; any other is answered `E_LIMIT` and
changes nothing but the response. So it is for every `LIMIT_MAX`, and for that of this machine, which every cap is
within. -/
def Obligations.SetLimitWritesLimit : Prop :=
  (∀ b0 b1 : Byte, ∃ n : U16, n.toNat = b0.toNat + 256 * b1.toNat ∧ decode (.command [0x04, b0, b1]) = .ok (.setLimit n)) ∧
  (∀ (b : BlockParams) (n : U16) (s : State),
    (n.toNat ≠ 0 → n.toNat ≤ b.limitMax → writeLimit b n s = { s with limit := n, resp := some .ok }) ∧
    (n.toNat = 0 ∨ b.limitMax < n.toNat → writeLimit b n s = { s with resp := some (.error .eLimit) })) ∧
  ∀ (n : U16) (s : State), exec (.setLimit n) s = .next (writeLimit Config.block n s) ∧
    (n.toNat ≠ 0 → exec (.setLimit n) s = .next { s with limit := n, resp := some .ok }) ∧
    (n.toNat = 0 → exec (.setLimit n) s = .next { s with resp := some (.error .eLimit) })

/-- R264: command word 0x5, with the operand bytes of R106; a key of `FW_SET`, the keys being numbered from 0 (R25), is written to `FW`, and the next FEED decodes all its
frames with the registry of that key; any other key is answered `E_FW` and changes nothing but the response. That a key
is not cut to `FW_W` bits, so that one of more bits is unknown, and that any other number of operand bytes is refused,
are the model's choices (log entry 1). -/
def Obligations.SetFwWritesFw : Prop :=
  (∀ ops : List Byte, ops.length = fwBytes → decode (.command (0x05 :: ops)) = .ok (.setFw (bytesValue ops 0 fwBytes))) ∧
  (∀ ops : List Byte, ops.length ≠ fwBytes → decode (.command (0x05 :: ops)) = .error .operandLength) ∧
  (∀ (b : BlockParams) (k : Nat) (s : State),
    (k ≤ b.fwOthers → writeFw b k s = { s with fw := k, resp := some .ok }) ∧
    (b.fwOthers < k → writeFw b k s = { s with resp := some (.error .eFw) })) ∧
  ∀ (k : Nat) (s : State),
    (k ≤ Config.fwOthers → exec (.setFw k) s = .next { s with fw := k, resp := some .ok } ∧
      ∀ c, exec (.feed c) { s with fw := k, resp := some .ok } =
        feedWith (Config.params k) c { s with fw := k, resp := some .ok }) ∧
    (Config.fwOthers < k → exec (.setFw k) s = .next { s with resp := some (.error .eFw) })

/-- R265, R266, R267, R268, R269: command words 0x6 to 0xA; each read-back answers its register and writes nothing else; right after reset they
answer 1, 65535, `FW_RESET`, the empty buffer and (IDLE, 0, 0). -/
def Obligations.GettersAnswerTheRegisters : Prop :=
  (decode (.command [0x06]) = .ok .getMode ∧ decode (.command [0x07]) = .ok .getLimit ∧
    decode (.command [0x08]) = .ok .getFw ∧ decode (.command [0x09]) = .ok .getBuf ∧
    decode (.command [0x0A]) = .ok .getStatus) ∧
  (∀ s : State,
    exec .getMode s = .next { s with resp := some (.mode s.mode) } ∧
    exec .getLimit s = .next { s with resp := some (.limit s.limit) } ∧
    exec .getFw s = .next { s with resp := some (.key s.fw) } ∧
    exec .getBuf s = .next { s with resp := some (.bytes s.buf) } ∧
    exec .getStatus s = .next { s with resp := some (.status s.phase s.buf.length s.q.length) }) ∧
  State.reset.mode = 1 ∧ State.reset.limit.toNat = 65535 ∧ State.reset.fw = Config.fwResetKey.val ∧
  State.reset.buf = [] ∧ State.reset.phase = .idle ∧ State.reset.q = []

/-- R270, R43: command word 0xF; RESET gives every piece of the block's state its reset value, the transient registers no
value, and answers `ok`; the hardware reset input asks for the same operation. `MODE` and `FW` become the parameters
`RESET_MODE` and `FW_RESET`, whichever they are; in this machine `RESET_MODE` is 1, and its parameters are a set that a
block can be built with (R333). -/
def Obligations.ResetGivesTheResetValues : Prop :=
  (∀ (b : BlockParams) (s : State), ∃ t, t = resetBlock b s ∧
    t.buf = [] ∧ t.q = [] ∧ t.limit.toNat = 65535 ∧ t.mode = b.resetMode ∧ t.fw = b.fwReset ∧ t.phase = .idle ∧
    t.scan = none ∧ t.dp = Datapath.empty ∧ t.resp = some .ok) ∧
  (∀ s : State, exec .reset s = .next (resetBlock Config.block s)) ∧ Config.block.Legal ∧
  (∀ s : State, ∃ t, exec .reset s = .next t ∧ t.buf = [] ∧ t.q = [] ∧ t.limit.toNat = 65535 ∧ t.mode = 1 ∧
    t.fw = Config.fwResetKey.val ∧ t.phase = .idle ∧ t.scan = none ∧ t.dp = Datapath.empty ∧ t.resp = some .ok) ∧
  decode (.command [0x0F]) = .ok .reset ∧ decode .resetInput = .ok .reset

/-- R271: each reserved command word is answered `E_CMD` and changes nothing but the response. -/
def Obligations.ReservedWordsAnswerECmd : Prop :=
  ∀ (h o : BitVec 4) (s : State), ∀ i ∈ [Instr.reserved0, .reservedB, .reservedC, .reservedD, .reservedE, .reservedHi h o],
    exec i s = .next { s with resp := some (.error .eCmd) }

/-- R108, R271: whatever bytes follow a reserved command word, the step that takes it answers `E_CMD`, and no state but
the response and what waits at the port changes. `E_CMD` is decided before any operand is looked at (R296). -/
def Obligations.ReservedWordStepsToECmd : Prop :=
  ∀ (w : Byte) (ops : List Byte) (rest : List Transaction) (s : State), s.port = .command (w :: ops) :: rest →
    (w.toNat = 0x0 ∨ (0xB ≤ w.toNat ∧ w.toNat ≤ 0xE) ∨ 0x10 ≤ w.toNat) →
    step s = .next { s with port := rest, resp := some (.error .eCmd) }

/-- R272: every host operation returns exactly one response, whatever response stood before; an error response leaves
every other part of the state as it was. -/
def Obligations.HostOperationsAnswerOnce : Prop :=
  ∀ (i : Instr) (s : State), i.format ≠ .internal → ∃ t r,
    exec i s = .next t ∧ exec i { s with resp := none } = .next t ∧ t.resp = some r ∧
    ∀ e, r = .error e → t = { s with resp := some (.error e) }

/-- R23, R24, R25, R40, R75: `MODE`, `LIMIT` and `FW` are written by their setters and by RESET alone; no stream data
changes them. -/
def Obligations.OnlySettersWriteConfiguration : Prop :=
  ∀ (i : Instr) (s t : State), exec i s = .next t → i ≠ .reset →
    ((∀ m, i ≠ .setMode m) → i ≠ .setModeAcc → i ≠ .setModeRep → t.mode = s.mode) ∧
    ((∀ n, i ≠ .setLimit n) → t.limit = s.limit) ∧
    ((∀ k, i ≠ .setFw k) → t.fw = s.fw)

/-- R68, R69, R235: no operation but a FEED or RESET writes a byte of `BUF` or changes `PHASE`; none but those, DRAIN and
what expands to it writes `Q`. -/
def Obligations.OnlyFeedAndResetWriteStorage : Prop :=
  ∀ (i : Instr) (s t : State), exec i s = .next t → i ≠ .reset → fedChunk i = none →
    (∀ a, t.readByte a = s.readByte a) ∧ t.buf.length = s.buf.length ∧ t.phase = s.phase ∧
    (i ≠ .drain → i ≠ .flush → t.q = s.q)

/-- R171, R29: an internal operation run on its own writes the datapath registers and the model's result latch (log
entry 8) and nothing else; only CRC16, HDR.DECODE, TIME.DECODE and EXTRACT write datapath registers. -/
def Obligations.InternalOperationsWriteNoState : Prop :=
  ∀ (i : Instr) (s t : State), i.format = .internal → exec i s = .next t →
    t = { s with dp := t.dp, out := t.out } ∧ t.out.isSome = true ∧
    ((∀ b, i ≠ .crc16 b ∧ i ≠ .hdrDecode b ∧ i ≠ .timeDecode b ∧ i ≠ .extract b) → t.dp = s.dp)

/-- R110: each pseudo-operation is its expansion; those without a FEED leave the state shown (R261, R262). -/
def Obligations.PseudoOperationsAreTheirExpansions : Prop :=
  ∀ (s : State),
    (∀ c, ∃ t u, exec (.feed c) s = .next t ∧ exec .drain t = .next u ∧ exec (.parse c) s = .next u) ∧
    exec .setModeAcc s = exec (.setMode 1) s ∧ exec .setModeAcc s = .next { s with mode := 1, resp := some .ok } ∧
    exec .setModeRep s = exec (.setMode 0) s ∧ exec .setModeRep s = .next { s with mode := 0, resp := some .ok } ∧
    exec .flush s = exec .drain s ∧ exec .flush s = .next { s with q := [], resp := some (.frames s.q) } ∧
    ∀ b, exec (.feedb b) s = exec (.feed [b]) s

/-- R40, R26, R27, R112, R300: the six control and status registers read as the state they name, under the numbers 0 to
5; the codes of the phases, the statuses, the errors and the responses; `Q_NONEMPTY` is up exactly when the queue holds a
frame, and down after DRAIN, FLUSH, PARSE and RESET. -/
def Obligations.ControlRegistersReadTheState : Prop :=
  (∀ s : State, s.readCtrl .mode = s.mode.toNat ∧ s.readCtrl .limit = s.limit.toNat ∧ s.readCtrl .fw = s.fw ∧
    s.readCtrl .phase = s.phase.code.toNat ∧ s.readCtrl .buflen = s.buf.length ∧ s.readCtrl .qlen = s.q.length ∧
    (s.qNonempty = true ↔ s.q ≠ [])) ∧
  (CtrlReg.mode.number = 0 ∧ CtrlReg.limit.number = 1 ∧ CtrlReg.fw.number = 2 ∧ CtrlReg.phase.number = 3 ∧
    CtrlReg.buflen.number = 4 ∧ CtrlReg.qlen.number = 5 ∧ ∀ r : CtrlReg, r.writable = true ↔ r.number < 3) ∧
  (Phase.idle.code = 0 ∧ Phase.scanning.code = 1 ∧ Phase.missingBytes.code = 2 ∧ Phase.drained.code = 3) ∧
  (Status.ok.code = 0 ∧ Status.missingBytes.code = 1 ∧ Status.errorLength.code = 2 ∧ Status.errorCrc.code = 3) ∧
  (ConfigError.eLimit.code = 1 ∧ ConfigError.eFw.code = 2 ∧ ConfigError.eCmd.code = 3 ∧ ConfigError.eChunk.code = 4 ∧
    ∀ r : Response, (∀ e, r = .error e → r.code = e.code) ∧ ((∀ e, r ≠ .error e) → r.code = 0)) ∧
  (∀ (c : List Byte) (s t : State), ∀ i ∈ [Instr.drain, .flush, .parse c, .reset], exec i s = .next t → t.qNonempty = false)

/-! ### Checksum -/

/-- CRC16 run on its own leaves its result in `CRCACC`, the one register it writes (R130); that the result is also kept in
the result latch is the model's own (log entry 8). -/
def Obligations.Crc16WritesItsRegister : Prop :=
  ∀ (b : List Byte) (s : State), exec (.crc16 b) s =
    .next { s with dp := { s.dp with crcacc := some (crc16 b) }, out := some (.crc (crc16 b)) }

/-- R131: from register 0, each byte is exclusive-ored into bits 15:8, then the register is shifted left eight times, with
the polynomial 0x1021 exclusive-ored in each time the bit shifted out was 1. Equivalently `CRC16(s)` is the remainder of
`s(x) * x^16` divided by `x^16 + x^12 + x^5 + 1` over GF(2), the bits of `s` as coefficients, the first byte's bit 7 the
highest. -/
def Obligations.Crc16IsThePolynomialRemainder : Prop :=
  crc16 [] = 0x0000 ∧
  (∀ (s : List Byte) (x : Byte), crc16 (s ++ [x]) =
    (List.range 8).foldl (fun (r : U16) _ => if r.getLsbD 15 = true then (r <<< 1) ^^^ 0x1021#16 else r <<< 1)
      (crc16 s ^^^ (x.setWidth 16 <<< 8))) ∧
  ∀ s : List Byte, ∃ quotient : Polynomial (ZMod 2),
    (s.foldl (fun a b => a * Polynomial.X ^ 8
        + ∑ i ∈ Finset.range 8, if b.getLsbD i = true then Polynomial.X ^ i else 0) 0) * Polynomial.X ^ 16
      = quotient * (Polynomial.X ^ 16 + Polynomial.X ^ 12 + Polynomial.X ^ 5 + 1)
        + ∑ i ∈ Finset.range 16, if (crc16 s).getLsbD i = true then Polynomial.X ^ i else 0

/-- R132: the checksum of nothing is 0, leading zero bytes do not change it, and a sequence followed by its own checksum,
high byte first, has checksum 0. -/
def Obligations.Crc16Properties : Prop :=
  crc16 [] = 0x0000 ∧ (∀ s, crc16 (0x00 :: s) = crc16 s) ∧
  ∀ s hi lo, hi = (crc16 s).extractLsb' 8 8 → lo = (crc16 s).extractLsb' 0 8 → crc16 (s ++ [hi, lo]) = 0

/-! ### Codecs -/

/-- R140, R141: HDR.DECODE reads the four fields little-endian and the two marker bytes, which it does not test, and
writes its six registers (the result latch is the model's own, log entry 8). -/
def Obligations.HdrDecodeReadsTheHeader : Prop :=
  ∀ (b0 b1 b2 b3 b4 b5 b6 b7 : Byte) (g : List Byte) (s : State), ∃ h : RawHeader,
    exec (.hdrDecode (b0 :: b1 :: b2 :: b3 :: b4 :: b5 :: b6 :: b7 :: g)) s = .next { s with
      dp := { s.dp with hSync := some (b1 ++ b0), hCrc := some h.crc, hId := some (b5 ++ b4), hNum := some h.blockNumber,
                        hRev := some h.blockRevision, hLen := some h.length }
      out := some (.header h) } ∧
    h.sync = (b0, b1) ∧ h.crc.toNat = b2.toNat + 256 * b3.toNat ∧
    h.blockNumber.toNat = b4.toNat + 256 * (b5.toNat % 32) ∧ h.blockRevision.toNat = b5.toNat / 32 ∧
    h.length.toNat = b6.toNat + 256 * b7.toNat

/-- R143, R144: TIME.DECODE on a candidate of 14 bytes or more: the two raw fields little-endian from offsets 8 and 12,
their validity bits, and the four combinations of the sentinels; the conversion is called with the week number first,
exactly when both are known (the result latch is the model's own, log entry 8). -/
def Obligations.TimeDecodeConvertsTheSentinels : Prop :=
  ∀ (f : List Byte) (s : State), 14 ≤ f.length → ∃ (tow : U32) (wnc : U16),
    tow.toNat = bytesValue f 8 4 ∧ wnc.toNat = bytesValue f 12 2 ∧
    exec (.timeDecode f) s = .next { s with
      dp := { s.dp with tTow := some tow, tWnc := some wnc, towV := some (if tow = 0xFFFFFFFF then 0 else 1),
                        wncV := some (if wnc = 0xFFFF then 0 else 1) }
      out := some (.time
        { tow := if tow = 0xFFFFFFFF then none else some tow
          wnc := if wnc = 0xFFFF then none else some wnc
          timestamp := if tow = 0xFFFFFFFF ∨ wnc = 0xFFFF then none else some (Config.timeConv wnc tow).1
          date := if tow = 0xFFFFFFFF ∨ wnc = 0xFFFF then none else some (Config.timeConv wnc tow).2 }) }

/-- R147: SENT_N compares all the bits of the raw value with the sentinel (the result latch is the model's own, log
entry 8). -/
def Obligations.SentNMapsTheSentinel : Prop :=
  ∀ (n : Nat) (raw sentinel : BitVec n) (s : State),
    exec (.sentN n raw sentinel) s = .next { s with out := some (.sent n (if raw = sentinel then none else some raw)) }

/-! ### Frame extractor -/

/-- R168: EXTRACT on 8 bytes or more, its tests in their normative order; the header alone with the three rejections,
the whole Frame with `OK`; nothing of the persistent state is written (the result latch is the model's own, log
entry 8). -/
def Obligations.ExtractTestsInOrder : Prop :=
  ∀ (b : List Byte) (s : State) (h : RawHeader), readHeader b = some h → ∃ t x,
    exec (.extract b) s = .next t ∧ t = { s with dp := t.dp, out := some (.extracted x) } ∧
    t.dp.status = some x.status ∧
    if b.length < h.length.toNat then x = .missingBytes h
    else if h.length.toNat % 4 ≠ 0 ∨ h.length.toNat < 14 then x = .errorLength h
    else if crc16 ((b.take h.length.toNat).drop 4) ≠ h.crc then x = .errorCrc h
    else ∃ fr, x = .ok fr ∧ fr.header = h ∧ fr.DecodedFrom (Config.params s.fw) (b.take h.length.toNat)

/-- R29, R44, R140, R143, R164: what EXTRACT leaves in the thirteen datapath registers, whatever they held before: `STATUS`
and the six header registers always, `BODYLEN` and `CRCACC` only behind the length tests, the time registers and their
flags, with the values TIME.DECODE gives them, only with `OK` (the result latch is the model's own,
log entry 8; that the registers keep these values behind EXTRACT, log entry 11). -/
def Obligations.ExtractRegistersByVerdict : Prop :=
  ∀ (b : List Byte) (s t : State) (x : Extracted), exec (.extract b) s = .next t → t.out = some (.extracted x) →
    ∃ h, readHeader b = some h ∧ t.dp.status = some x.status ∧
    (∃ sync id : U16, t.dp.hSync = some sync ∧ sync.toNat = bytesValue b 0 2 ∧
      t.dp.hId = some id ∧ id.toNat = bytesValue b 4 2) ∧
    t.dp.hCrc = some h.crc ∧ t.dp.hNum = some h.blockNumber ∧ t.dp.hRev = some h.blockRevision ∧ t.dp.hLen = some h.length ∧
    (x.status = .missingBytes ∨ x.status = .errorLength → t.dp.bodylen = none ∧ t.dp.crcacc = none) ∧
    (x.status = .errorCrc ∨ x.status = .ok →
      (∃ l, t.dp.bodylen = some l ∧ l.toNat + 14 = h.length.toNat) ∧
      t.dp.crcacc = some (crc16 ((b.take h.length.toNat).drop 4))) ∧
    (x.status ≠ .ok → t.dp.tTow = none ∧ t.dp.tWnc = none ∧ t.dp.towV = none ∧ t.dp.wncV = none) ∧
    (x.status = .ok → ∃ (tow : U32) (wnc : U16), tow.toNat = bytesValue b 8 4 ∧ wnc.toNat = bytesValue b 12 2 ∧
      t.dp.tTow = some tow ∧ t.dp.tWnc = some wnc ∧ t.dp.towV = some (if tow = 0xFFFFFFFF then 0 else 1) ∧
      t.dp.wncV = some (if wnc = 0xFFFF then 0 else 1))

/-- R101: at a marker, EXTRACT accepts exactly the candidates whose declared span lies inside the bytes present and is a
well-formed frame: 16 bytes or more, the marker, the length field its own size and a multiple of 4, the checksum field
the CRC-16 of the bytes from 4 on (the result latch is the model's own, log entry 8). -/
def Obligations.ExtractAcceptsWellFormedFrames : Prop :=
  ∀ (b : List Byte) (s : State) (h : RawHeader), readHeader b = some h → markerAt b 0 = true →
    ((∃ t fr, exec (.extract b) s = .next t ∧ t.out = some (.extracted (.ok fr))) ↔
      ∃ f, f = b.take h.length.toNat ∧ 16 ≤ f.length ∧ f[0]? = some 0x24 ∧ f[1]? = some 0x40 ∧
        bytesValue f 6 2 = f.length ∧ f.length % 4 = 0 ∧ bytesValue f 2 2 = (crc16 (f.drop 4)).toNat)

/-- R164, R172: bytes beyond the declared length play no part in EXTRACT. -/
def Obligations.ExtractIgnoresTrailingBytes : Prop :=
  ∀ (b : List Byte) (s : State) (h : RawHeader), readHeader b = some h → 8 ≤ h.length.toNat →
    h.length.toNat ≤ b.length → exec (.extract b) s = exec (.extract (b.take h.length.toNat)) s

/-! ### Registry and field conventions -/

/-- R180, R182: REG.DECODE looks the block number alone up in the registry of `FW` and gives the revision to the decoder;
an unmapped number yields "unknown" without a body. So it is for every table (the result latch is the model's own, log
entry 8). -/
def Obligations.RegDecodeDispatches : Prop :=
  ∀ (num : BlockNumber) (rev : BlockRevision) (body : List Byte) (s : State),
    exec (.regDecode num rev body) s = .next { s with
      out := some (.body (regDecode (Config.registry s.fw) num rev body)) } ∧
    ∀ table : BlockNumber → Option Decoder,
      (∀ d, table num = some d → regDecode table num rev body = d rev body) ∧
      (table num = none → regDecode table num rev body = { name := "unknown", body := none })

/-- R188, R189, R190, R192, R193: a field read inside the body is the little-endian value of its bytes, made absent when
all its bits are the sentinel's; a float field is carried as its bit pattern (the result latch is the model's own, log
entry 8). -/
def Obligations.UnsignedFieldsRead : Prop :=
  ∀ (body : List Byte) (off : Nat) (s : State),
    (off + 1 ≤ body.length → ∀ sentinel, ∃ raw : BitVec 8, raw.toNat = bytesValue body off 1 ∧
      exec (.fldU8 body off sentinel) s =
        .next { s with out := some (.field (.u8 (if sentinel = some raw then none else some raw))) }) ∧
    (off + 2 ≤ body.length → ∀ sentinel, ∃ raw : BitVec 16, raw.toNat = bytesValue body off 2 ∧
      exec (.fldU16 body off sentinel) s =
        .next { s with out := some (.field (.u16 (if sentinel = some raw then none else some raw))) }) ∧
    (off + 4 ≤ body.length → ∀ sentinel, ∃ raw : BitVec 32, raw.toNat = bytesValue body off 4 ∧
      exec (.fldU32 body off sentinel) s =
        .next { s with out := some (.field (.u32 (if sentinel = some raw then none else some raw))) }) ∧
    (off + 4 ≤ body.length → ∀ sentinel, ∃ raw : BitVec 32, raw.toNat = bytesValue body off 4 ∧
      exec (.fldF32 body off sentinel) s =
        .next { s with out := some (.field (.f32 (if sentinel = some raw then none else some raw))) }) ∧
    (off + 8 ≤ body.length → ∀ sentinel, ∃ raw : BitVec 64, raw.toNat = bytesValue body off 8 ∧
      exec (.fldF64 body off sentinel) s =
        .next { s with out := some (.field (.f64 (if sentinel = some raw then none else some raw))) })

/-- R191: a signed field compares its raw bits with the sentinel's pattern and is otherwise the two's complement value:
the raw value, less `2 ^ width` when its top bit is set (the result latch is the model's own, log entry 8). -/
def Obligations.SignedFieldsRead : Prop :=
  ∀ (body : List Byte) (off : Nat) (s : State),
    (off + 1 ≤ body.length → ∀ sentinel : Option (BitVec 8), ∃ (raw : BitVec 8) (v : Int),
      raw.toNat = bytesValue body off 1 ∧ v = (raw.toNat : Int) - (if 2 ^ 7 ≤ raw.toNat then 2 ^ 8 else 0) ∧
      exec (.fldI8 body off sentinel) s =
        .next { s with out := some (.field (.i8 (if sentinel = some raw then none else some v))) }) ∧
    (off + 2 ≤ body.length → ∀ sentinel : Option (BitVec 16), ∃ (raw : BitVec 16) (v : Int),
      raw.toNat = bytesValue body off 2 ∧ v = (raw.toNat : Int) - (if 2 ^ 15 ≤ raw.toNat then 2 ^ 16 else 0) ∧
      exec (.fldI16 body off sentinel) s =
        .next { s with out := some (.field (.i16 (if sentinel = some raw then none else some v))) }) ∧
    (off + 4 ≤ body.length → ∀ sentinel : Option (BitVec 32), ∃ (raw : BitVec 32) (v : Int),
      raw.toNat = bytesValue body off 4 ∧ v = (raw.toNat : Int) - (if 2 ^ 31 ≤ raw.toNat then 2 ^ 32 else 0) ∧
      exec (.fldI32 body off sentinel) s =
        .next { s with out := some (.field (.i32 (if sentinel = some raw then none else some v))) })

/-- R194: FLD.BITS is the sub-field `v[lo+width-1 : lo]`, inside the value (the result latch is the model's own, log
entry 8). -/
def Obligations.BitFieldExtracts : Prop :=
  ∀ (w : Nat) (v : BitVec w) (lo width : Nat) (s : State), lo + width ≤ w →
    exec (.fldBits w v lo width) s = .next { s with out := some (.bits (v.toNat / 2 ^ lo % 2 ^ width)) }

/-- R196: the padding is absent when the body is consumed, and otherwise one little-endian natural number of any size
(the result latch is the model's own, log entry 8). -/
def Obligations.PaddingIsOneInteger : Prop :=
  ∀ (body : List Byte) (endOff : Nat) (s : State), endOff ≤ body.length →
    ∃ p, exec (.fldPad body endOff) s = .next { s with out := some (.padding p) } ∧
      (endOff = body.length → p = none) ∧
      (endOff < body.length → p = some (bytesValue body endOff (body.length - endOff)) ∧
        bytesValue body endOff (body.length - endOff) < 2 ^ (8 * (body.length - endOff)))

/-- Where an internal operation has no meaning: HDR.DECODE and EXTRACT on fewer than 8 bytes (R142, R170). The other
three stops, a read past the end of its bytes and a sub-field outside its value, are the model's refusals (log entry 9). -/
def Obligations.InternalOperationsStopOutsideTheirContract : Prop :=
  ∀ (b : List Byte) (off w lo width : Nat) (v : BitVec w) (s : State),
    (b.length < 8 → exec (.hdrDecode b) s = .refused .headerTooShort ∧ exec (.extract b) s = .refused .headerTooShort) ∧
    (b.length < 14 → exec (.timeDecode b) s = .refused .readOutside) ∧
    (b.length < off + 1 → ∀ x, exec (.fldU8 b off x) s = .refused .readOutside ∧ exec (.fldI8 b off x) s = .refused .readOutside) ∧
    (b.length < off + 2 → ∀ x, exec (.fldU16 b off x) s = .refused .readOutside ∧ exec (.fldI16 b off x) s = .refused .readOutside) ∧
    (b.length < off + 4 → ∀ x, exec (.fldU32 b off x) s = .refused .readOutside ∧ exec (.fldI32 b off x) s = .refused .readOutside
      ∧ exec (.fldF32 b off x) s = .refused .readOutside) ∧
    (b.length < off + 8 → ∀ x, exec (.fldF64 b off x) s = .refused .readOutside) ∧
    (b.length < off → exec (.fldPad b off) s = .refused .readOutside) ∧
    (w < lo + width → exec (.fldBits w v lo width) s = .refused .bitsOutside)

/-- R199: DECODE_LAYOUT reads the fields that the body's revision has, in the layout's order, each with the value that its
own field operation answers at its offset and with its sentinel, and the padding behind the last of them; a body too short
for them gives no body. The size of a field is that of its type (the result latch is the
model's own, log entry 8). -/
def Obligations.LayoutDecodesTheRevisionsFields : Prop :=
  ∀ (name : String) (fields : List FieldSpec) (maxrev rev : BlockRevision) (body : List Byte) (s : State),
    (∀ f : FieldSpec, f.kind.size = match f.kind with
      | .u8 _ => 1
      | .i8 _ => 1
      | .u16 _ => 2
      | .i16 _ => 2
      | .u32 _ => 4
      | .i32 _ => 4
      | .f32 _ => 4
      | .f64 _ => 8) ∧
    ∃ (present : List FieldSpec) (endOff : Nat) (res : BodyResult),
      present = fields.filter (fun f => decide (f.since.toNat ≤ min rev.toNat maxrev.toNat)) ∧
      (∀ f ∈ present, f.off + f.kind.size ≤ endOff) ∧
      (present = [] ∧ endOff = 0 ∨ ∃ f ∈ present, f.off + f.kind.size = endOff) ∧
      exec (.decodeLayout name fields maxrev rev body) s = .next { s with out := some (.body res) } ∧ res.name = name ∧
      (body.length < endOff → res.body = none) ∧
      (endOff ≤ body.length → ∃ value, res.body = some (.layout value) ∧
        List.Forall₂ (fun f nv => nv.1 = f.name ∧
          (match f.kind with
            | .u8 x => exec (.fldU8 body f.off x) s
            | .u16 x => exec (.fldU16 body f.off x) s
            | .u32 x => exec (.fldU32 body f.off x) s
            | .i8 x => exec (.fldI8 body f.off x) s
            | .i16 x => exec (.fldI16 body f.off x) s
            | .i32 x => exec (.fldI32 body f.off x) s
            | .f32 x => exec (.fldF32 body f.off x) s
            | .f64 x => exec (.fldF64 body f.off x) s) = .next { s with out := some (.field nv.2) })
          present value.fields ∧
        value.padding = if endOff = body.length then none else some (bytesValue body endOff (body.length - endOff)))

/-- R195, R197: a revision beyond the highest known decodes as the highest known; and every field that an earlier
revision of the same body has is there, with the same value, in every later one that can be read. In a well-formed layout
the later fields are appended behind the earlier ones, one or more with each revision up to the highest known, at or
beyond the end of the earlier fields. -/
def Obligations.LaterRevisionsKeepFields : Prop :=
  ∀ (name : String) (fields : List FieldSpec) (maxrev rev later : BlockRevision) (body : List Byte),
    (maxrev ≤ rev → decodeLayout name fields maxrev rev body = decodeLayout name fields maxrev maxrev body) ∧
    (rev ≤ later → ∀ v v', (decodeLayout name fields maxrev rev body).body = some (.layout v) →
      (decodeLayout name fields maxrev later body).body = some (.layout v') → v.fields.Sublist v'.fields ∧
      ((Instr.decodeLayout name fields maxrev later body).wellFormed = true → v.fields <+: v'.fields ∧
        (rev < later → later ≤ maxrev → v.fields.length < v'.fields.length ∧
          ∀ f ∈ fields, rev < f.since → fieldsEnd (presentFields fields rev) ≤ f.off)))

/-! ### Searches -/

/-- R223: FIND answers the least offset at or after `p` with both marker bytes inside `BUF`, and none when there is
none (the result latch is the model's own, log entry 8). -/
def Obligations.FindIsTheLeastMarker : Prop :=
  ∀ (p : Nat) (s : State), ∃ r, exec (.find p) s = .next { s with out := some (.index r) } ∧
    (∀ i, r = some i ↔ p ≤ i ∧ s.readByte i = some 0x24 ∧ s.readByte (i + 1) = some 0x40 ∧
      ∀ j, p ≤ j → j < i → ¬(s.readByte j = some 0x24 ∧ s.readByte (j + 1) = some 0x40)) ∧
    (r = none ↔ ∀ j, p ≤ j → ¬(s.readByte j = some 0x24 ∧ s.readByte (j + 1) = some 0x40)) ∧
    (s.buf.length < p + 2 → r = none)

/-- R224: LASTMARK answers the greatest offset with both marker bytes inside `BUF`; it answers none exactly when
`FIND(0)` does (the result latch is the model's own, log entry 8). -/
def Obligations.LastmarkIsTheGreatestMarker : Prop :=
  ∀ (s : State), ∃ r, exec .lastmark s = .next { s with out := some (.index r) } ∧
    (∀ i, r = some i ↔ s.readByte i = some 0x24 ∧ s.readByte (i + 1) = some 0x40 ∧
      ∀ j, i < j → ¬(s.readByte j = some 0x24 ∧ s.readByte (j + 1) = some 0x40)) ∧
    (r = none ↔ exec (.find 0) s = .next { s with out := some (.index none) })

/-! ### FEED -/

/-- R234: FEED in full, for any parameters without a bound on the queue. Within `CHUNK_MAX` the loop of step 3, told rule
by rule in `Scans`, ends in exactly one way, and FEED leaves what it kept, cut to the last `LIMIT` bytes, its phase, its
frames delivered by `MODE`, no transient register, and answers `ok`; nothing else is written. Beyond `CHUNK_MAX` it
answers `E_CHUNK` and writes nothing else. The operation FEED is that, under the machine's own parameters. -/
def Obligations.FeedFollowsItsSteps : Prop :=
  (∀ (p : Params) (c : List Byte) (s : State), p.queueCap = none →
    ((∀ m, p.chunkMax = some m → c.length ≤ m) → ∃ kept ph newq,
      Scans p (s.joined c) 0 [] kept ph newq ∧
      (∀ kept' ph' newq', Scans p (s.joined c) 0 [] kept' ph' newq' → kept' = kept ∧ ph' = ph ∧ newq' = newq) ∧
      feedWith p c s = .next { s with
        buf := if s.limit.toNat < kept.length then kept.drop (kept.length - s.limit.toNat) else kept
        q := if s.mode = 1 then s.q ++ newq else newq
        phase := ph, scan := none, dp := Datapath.empty, resp := some .ok }) ∧
    ((∃ m, p.chunkMax = some m ∧ m < c.length) → feedWith p c s = .next { s with resp := some (.error .eChunk) })) ∧
  ∀ (c : List Byte) (s : State), exec (.feed c) s = feedWith (Config.params s.fw) c s ∧ (Config.params s.fw).queueCap = none
    ∧ (Config.params s.fw).chunkMax = none

/-- R299: every operation that is a FEED completes from every state, with response `ok` (PARSE: with the frames, R110),
leaves the configuration as it was and a state in which every host operation completes again, and none is a fault; a
stream of bytes cannot stop the block. -/
def Obligations.FeedsAlwaysComplete : Prop :=
  ∀ (i : Instr) (c : List Byte) (s : State), fedChunk i = some c → ∃ t, exec i s = .next t ∧
    (i ≠ .parse c → t.resp = some .ok) ∧ (i = .parse c → ∃ fs, t.resp = some (.frames fs)) ∧
    (∀ j : Instr, j.format ≠ .internal → ∃ u, exec j t = .next u) ∧ t.limit = s.limit ∧ t.mode = s.mode ∧ t.fw = s.fw ∧
    t.port = s.port ∧ t.out = s.out ∧ t.scan = none ∧ t.dp = Datapath.empty

/-- R35 I-3, R239 (f): after every operation that is a FEED, `BUF` holds at most `LIMIT` bytes. -/
def Obligations.FeedBoundsTheBuffer : Prop :=
  ∀ (i : Instr) (c : List Byte) (s t : State), fedChunk i = some c → exec i s = .next t →
    t.buf.length ≤ s.limit.toNat ∧ t.limit = s.limit

/-- R238: what a FEED leaves in `BUF`. Stopped at 3a: nothing. Stopped at 3b or 3e: the end of the bytes it worked on, from
their last marker, no other in it, 2 to 65534 bytes, below 14 unless its header declares more bytes than there are; never
more than `LIMIT`; if step 5 cut it, no marker is left in it. -/
def Obligations.FeedRetainsFromTheLastMarker : Prop :=
  ∀ (c : List Byte) (s t : State), exec (.feed c) s = .next t →
    (t.phase = .drained ∧ t.buf = []) ∨
    (t.phase = .missingBytes ∧ ∃ m kept, FinalMark (s.joined c) m ∧ kept = (s.joined c).drop m ∧
      2 ≤ kept.length ∧ kept.length ≤ 65534 ∧ FinalMark kept 0 ∧
      (14 ≤ kept.length → ∃ h, readHeader kept = some h ∧ kept.length < h.length.toNat) ∧ t.buf.length ≤ s.limit.toNat ∧
      (kept.length ≤ s.limit.toNat → t.buf = kept) ∧
      (s.limit.toNat < kept.length → t.buf = kept.drop (kept.length - s.limit.toNat) ∧ ∀ i, markerAt t.buf i = false))

/-- R237, R69, R78: the frames of one FEED are well-formed frames that stand, in this order and without overlap, in the
bytes it worked on; each is decoded from its own bytes with the registry of the `FW` in force; they join the queue in
accumulate mode and replace it in replace mode (R232). -/
def Obligations.FeedDeliversFramesInOrder : Prop :=
  ∀ (c : List Byte) (s t : State), exec (.feed c) s = .next t → ∃ spans : List (Nat × Frame),
    t.q = (if s.mode = 1 then s.q else []) ++ spans.map Prod.snd ∧
    (∀ af ∈ spans, wellFormedFrame af.2.raw = true ∧
      af.2.raw = ((s.joined c).drop af.1).take af.2.raw.length ∧ af.1 + af.2.raw.length ≤ (s.joined c).length ∧
      af.2.DecodedFrom (Config.params s.fw) af.2.raw) ∧
    spans.Pairwise fun x y => x.1 + x.2.raw.length ≤ y.1

/-- R344, R345: in replace mode neither the bytes retained nor the frames queued before play any part. -/
def Obligations.ReplaceModeForgets : Prop :=
  ∀ (c b : List Byte) (q : List Frame) (s : State), s.mode = 0 → exec (.feed c) s = exec (.feed c) { s with buf := b, q := q }

/-- R239 (a), R103: a well-formed frame fed whole, to an empty buffer or in replace mode, yields one Frame, decoded from
exactly those bytes, and leaves no byte behind; a block number without a decoder yields "unknown" and is delivered all
the same. -/
def Obligations.WholeFrameRoundTrip : Prop :=
  ∀ (f : List Byte) (s : State), wellFormedFrame f = true → s.buf = [] ∨ s.mode = 0 →
    ∃ fr, exec (.feed f) s = .next { s with
        buf := [], q := (if s.mode = 1 then s.q else []) ++ [fr], phase := .drained, scan := none, dp := Datapath.empty
        resp := some .ok } ∧
      fr.DecodedFrom (Config.params s.fw) f ∧
      fr.result = match Config.registry s.fw fr.header.blockNumber with
        | some d => d fr.header.blockRevision (f.drop 14)
        | none => { name := "unknown", body := none }

/-- R111, R239 (a): the frame built from field values, its body 2 more than a multiple of 4, is delivered with those
field values, through FRAME, that is through a FEED of its bytes. -/
def Obligations.BuiltFrameIsDelivered : Prop :=
  ∀ (num : BlockNumber) (rev : BlockRevision) (len : U16) (tow : U32) (wnc : U16) (body : List Byte) (s : State),
    body.length % 4 = 2 → len.toNat = 14 + body.length → s.buf = [] ∨ s.mode = 0 →
    ∃ t fr, exec (.frame (crc16 (frameRest num rev len tow wnc body)) num rev len tow wnc body) s = .next t ∧
      exec (.feed (buildFrame num rev tow wnc body)) s = .next t ∧
      t.q = (if s.mode = 1 then s.q else []) ++ [fr] ∧ t.buf = [] ∧ fr.raw = buildFrame num rev tow wnc body ∧
      fr.header.blockNumber = num ∧ fr.header.blockRevision = rev ∧ fr.header.length = len ∧
      fr.header.sync = (0x24, 0x40) ∧ fr.time = timeInfo Config.timeConv tow wnc

/-- R239 (b): the first `k` bytes of a frame whose marker is whole and alone in them are retained, and no frame comes of
them; of 0 or 1 bytes nothing is retained. -/
def Obligations.PartialFrameIsRetained : Prop :=
  ∀ (f : List Byte) (k : Nat) (s : State), wellFormedFrame f = true → s.mode = 1 → s.buf = [] →
    (2 ≤ k → k < f.length → k ≤ s.limit.toNat → NoInnerMarker f k →
      exec (.feed (f.take k)) s = .next { s with
        buf := f.take k, phase := .missingBytes, scan := none, dp := Datapath.empty, resp := some .ok }) ∧
    (k ≤ 1 → exec (.feed (f.take k)) s = .next { s with
        buf := [], phase := .drained, scan := none, dp := Datapath.empty, resp := some .ok })

/-- R239 (c): a frame split at `k` below its length in accumulate mode is delivered once, by the second FEED, the same
Frame as when fed whole; with nothing left for the second FEED it is delivered by the first; split behind its first byte
it is lost: no frame as long comes of it, and none at all if it nests no frame. -/
def Obligations.SplitFrameIsReassembled : Prop :=
  ∀ (f : List Byte) (k : Nat) (s : State), wellFormedFrame f = true → s.mode = 1 → s.buf = [] → k ≤ f.length →
    ∃ t u fr, exec (.feed (f.take k)) s = .next t ∧ exec (.feed (f.drop k)) t = .next u ∧
      fr.DecodedFrom (Config.params s.fw) f ∧
      ((k = 0 ∨ (2 ≤ k ∧ k < f.length ∧ k ≤ s.limit.toNat ∧ NoInnerMarker f k)) →
        t.q = s.q ∧ u.q = s.q ++ [fr] ∧ u.buf = []) ∧
      (k = f.length → t.q = s.q ++ [fr] ∧ t.buf = [] ∧ u.q = s.q ++ [fr] ∧ u.buf = []) ∧
      (k = 1 → t.q = s.q ∧ t.buf = [] ∧ (∃ more, u.q = s.q ++ more ∧ ∀ g ∈ more, g.raw.length < f.length) ∧
        (NestsNoFrame f → u.q = s.q))

/-- R239 (d): in replace mode the same two FEEDs yield no frame, when no well-formed frame stands inside the frame. -/
def Obligations.ReplaceModeNeverReassembles : Prop :=
  ∀ (f : List Byte) (k : Nat) (s t u : State), wellFormedFrame f = true → s.mode = 0 → 0 < k → k < f.length →
    NestsNoFrame f →
    exec (.feed (f.take k)) s = .next t → exec (.feed (f.drop k)) t = .next u → t.q = [] ∧ u.q = []

/-- R239 (e), R105: a frame at the front of a chunk is delivered first, whatever follows it. -/
def Obligations.ResynchronisationBehindAFrame : Prop :=
  ∀ (f g : List Byte) (s : State), wellFormedFrame f = true → s.buf = [] ∨ s.mode = 0 →
    ∃ t fr more, exec (.feed (f ++ g)) s = .next t ∧ t.q = (if s.mode = 1 then s.q else []) ++ fr :: more ∧
      fr.DecodedFrom (Config.params s.fw) f ∧ ∀ fr' ∈ more, ∃ a,
        fr'.raw = (g.drop a).take fr'.raw.length ∧ a + fr'.raw.length ≤ g.length ∧ wellFormedFrame fr'.raw = true

/-- R341: one byte fed alone, to an empty buffer or in replace mode, is cleared and yields no frame. -/
def Obligations.SingleBytesAreLost : Prop :=
  ∀ (b : Byte) (s : State), s.buf = [] ∨ s.mode = 0 →
    exec (.feedb b) s = .next { s with
      buf := [], q := if s.mode = 1 then s.q else [], phase := .drained, scan := none, dp := Datapath.empty
      resp := some .ok }

/-- R240: the empty chunk. In accumulate mode, after a FEED that retained bytes uncut it changes nothing, and after one
that cut them it clears `BUF`; in replace mode it clears `BUF` and `Q`. -/
def Obligations.EmptyChunkRescans : Prop :=
  (∀ (c : List Byte) (s t : State), exec (.feed c) s = .next t → t.mode = 1 → t.phase = .missingBytes →
    (markerAt t.buf 0 = true → exec (.feed []) t = .next t) ∧
    (markerAt t.buf 0 = false → exec (.feed []) t = .next { t with buf := [], phase := .drained })) ∧
  ∀ s : State, s.mode = 0 → exec (.feed []) s = .next { s with
    buf := [], q := [], phase := .drained, scan := none, dp := Datapath.empty, resp := some .ok }

/-- R236: the loop needs no more passes than half the bytes of the buffer: more change nothing. -/
def Obligations.ScanEndsInHalfTheBytes : Prop :=
  ∀ (p : Params) (b : List Byte) (k : Nat), ∃ e,
    scanLoop p b (b.length / 2 + k) (ScanRegs.start (lastMark b)) = some e ∧
    scanLoop p b (b.length / 2) (ScanRegs.start (lastMark b)) = some e

/-- R302: with a finite `QUEUE_CAP` a FEED that would make the queue longer is the fault, and any other FEED is as without
the bound; without a bound, as in this machine, the fault cannot occur. -/
def Obligations.FiniteQueueFaults : Prop :=
  (∀ (p : Params) (m : Nat) (c : List Byte) (s t : State),
    feedWith { p with queueCap := none } c s = .next t →
    feedWith { p with queueCap := some m } c s =
      if t.resp = some .ok ∧ m < t.q.length then .fault .queueOverflow else .next t) ∧
  (∀ (p : Params) (c : List Byte) (s : State) (r : Fault), feedWith { p with queueCap := none } c s ≠ .fault r) ∧
  ∀ (i : Instr) (s : State) (r : Fault), exec i s ≠ .fault r

/-! ### Encoding, step and invariant -/

/-- R273, R90: a chunk on the stream port is a FEED of exactly its bytes, also where the decoder reads it as FRAME. -/
def Obligations.StreamChunkIsFeed : Prop :=
  ∀ (c : List Byte) (s : State), exec (decodeStream c) s = exec (.feed c) s ∧
    (∀ (crc : U16) (num : BlockNumber) (rev : BlockRevision) (len : U16) (tow : U32) (wnc : U16) (body : List Byte),
      exec (.frame crc num rev len tow wnc body) s = exec (.feed (frameBytes crc num rev len tow wnc body)) s ∧
      (decodeStream c = .frame crc num rev len tow wnc body → frameBytes crc num rev len tow wnc body = c))

/-- R107, R108, R111, R110: the decoder reads back every well-formed operation with an encoding, all its operands; a
pseudo-operation is read as its expansion. -/
def Obligations.EncodingRoundTrip : Prop :=
  ∀ i : Instr, i.wellFormed = true → i.format ≠ .internal →
    (encode i).map decode = (expansion i).map Except.ok

/-- R107, R106, R108: some command words, written out from the opcode table, and the operand bytes of SET_FW for a key
of one and of two bytes. -/
def Obligations.CommandWordsDecode : Prop :=
  decode (.command [0b00000010]) = .ok .drain ∧
  decode (.command [0b00000011, 0b10101011]) = .ok (.setMode 1) ∧
  decode (.command [0b00000100, 0x34, 0x12]) = .ok (.setLimit 0x1234) ∧
  (∀ ops, decode (.command (0b00000101 :: ops)) = decodeSetFw fwBytes ops) ∧
  decodeSetFw 1 [0b00000001] = .ok (.setFw 1) ∧ decodeSetFw 2 [0x02, 0x01] = .ok (.setFw 0x0102) ∧
  decode (.command [0b00000001, 0x24, 0x40]) = .ok (.feed [0x24, 0x40]) ∧
  decode (.command [0b00001111]) = .ok .reset ∧
  decode (.command [0b00001011]) = .ok .reservedB ∧
  decode (.command [0b01000001, 0x00]) = .ok (.reservedHi 4 1)

/-- R71, R72: a step takes the first transaction at the port and runs the operation it decodes to, on the state without
that transaction; with nothing at the port the block holds its state (R303). A transaction that carries no operation is
refused, the model's choice (log entry 1). -/
def Obligations.StepRunsTheDecodedOperation : Prop :=
  ∀ s : State,
    (∀ t rest i, s.port = t :: rest → decode t = .ok i → step s = exec i { s with port := rest }) ∧
    (∀ t rest e, s.port = t :: rest → decode t = .error e → step s = .refused (.undecodable e)) ∧
    (s.port = [] → step s = .next s)

/-- R35, R238, R23, R25, R26, R28: every step keeps the invariant: a legal cap and firmware key, no transient register
and no `SCANNING` between operations, a marker nowhere in `BUF` but at its front, and a queue of validated frames. -/
def Obligations.StepKeepsTheInvariant : Prop :=
  ∀ s t : State, s.Inv → step s = .next t → t.Inv

/-- R43: the state after reset meets the invariant. -/
def Obligations.ResetMeetsTheInvariant : Prop := State.reset.Inv

/-- R60: `BUF` as address and byte pairs is in its one canonical form in every state, and reads as the bytes of `BUF`; no
other address is listed (the form is the model's, log entry 10). -/
def Obligations.MemoryFormIsCanonical : Prop :=
  ∀ s : State, Memory.wf s.memory = true ∧ ∀ a x, (a, x) ∈ s.memory ↔ s.readByte a = some x

/-- R270: RESET leaves the reset state and its answer. What R270 does not say is the model's choice: what the host has yet to
present stays at the port (log entry 14), and the model's result latch is cleared (log entry 8). -/
def Obligations.ResetLeavesThePort : Prop :=
  ∀ s : State, exec .reset s = .next { State.reset with port := s.port, resp := some .ok } ∧
    ∃ t, exec .reset s = .next t ∧ t.port = s.port ∧ t.out = none

end
end

