-- ==== Sys2Proof/Laws/Bytes.lean ====
section
/-! SUPPORT. Byte order: reading back what the encoder writes, and the numeric value of an assembled field. -/

namespace Sys2Proof

theorem leNat_lt (bs : List Byte) : leNat bs < 256 ^ bs.length := by
  induction bs with
  | nil => simp [leNat]
  | cons b bs ih =>
    have hb : b.toNat < 256 := b.isLt
    simp only [leNat, List.length_cons, pow_succ]
    omega

@[simp] theorem leBytes_length (n v : Nat) : (leBytes n v).length = n := by
  induction n generalizing v with
  | zero => rfl
  | succ n ih => simp [leBytes, ih]

theorem leNat_leBytes (n k : Nat) (h : k < 256 ^ n) : leNat (leBytes n k) = k := by
  induction n generalizing k with
  | zero => simp only [pow_zero] at h; simp [leBytes, leNat]; omega
  | succ n ih =>
    have h2 : k / 256 < 256 ^ n := by
      rw [Nat.div_lt_iff_lt_mul (by norm_num)]; rw [pow_succ] at h; exact h
    simp only [leBytes, leNat, ih _ h2, BitVec.toNat_ofNat]
    omega

theorem fwBytes_pos : 0 < fwBytes := by
  have : 1 ≤ fwWidth := Nat.le_max_left _ _
  unfold fwBytes; omega

theorem u16le_toNat (b0 b1 : Byte) : (u16le b0 b1).toNat = b0.toNat + 256 * b1.toNat := by
  have h0 : b0.toNat < 2 ^ 8 := b0.isLt
  simp only [u16le, BitVec.toNat_append]
  rw [← Nat.shiftLeft_add_eq_or_of_lt h0, Nat.shiftLeft_eq]; omega

theorem u32le_toNat (b0 b1 b2 b3 : Byte) :
    (u32le b0 b1 b2 b3).toNat = b0.toNat + 256 * (b1.toNat + 256 * (b2.toNat + 256 * b3.toNat)) := by
  have h0 : b0.toNat < 2 ^ 8 := b0.isLt
  have h1 : b1.toNat < 2 ^ 8 := b1.isLt
  have h2 : b2.toNat < 2 ^ 8 := b2.isLt
  simp only [u32le, BitVec.toNat_append]
  rw [← Nat.shiftLeft_add_eq_or_of_lt h2, ← Nat.shiftLeft_add_eq_or_of_lt h1, ← Nat.shiftLeft_add_eq_or_of_lt h0]
  simp only [Nat.shiftLeft_eq]; omega

theorem u16le_bytes16 (v : U16) : u16le (v.extractLsb' 0 8) (v.extractLsb' 8 8) = v := by
  apply BitVec.eq_of_toNat_eq
  rw [u16le_toNat]
  have hv : v.toNat < 65536 := v.isLt
  simp only [BitVec.extractLsb'_toNat, Nat.shiftRight_eq_div_pow]
  omega

theorem u32le_bytes32 (v : U32) :
    u32le (v.extractLsb' 0 8) (v.extractLsb' 8 8) (v.extractLsb' 16 8) (v.extractLsb' 24 8) = v := by
  apply BitVec.eq_of_toNat_eq
  rw [u32le_toNat]
  have hv : v.toNat < 4294967296 := v.isLt
  simp only [BitVec.extractLsb'_toNat, Nat.shiftRight_eq_div_pow]
  omega

theorem idNumber_eq (b4 b5 : Byte) : (idNumber b4 b5).toNat = b4.toNat + 256 * (b5.toNat % 32) := by
  have h : ∀ b5 : Byte, (((b5 &&& 0x1F).setWidth 13 <<< 8 : BlockNumber)) = BitVec.ofNat 13 ((b5.toNat % 32) * 256) := by decide
  have h0 : b4.toNat < 2 ^ 8 := b4.isLt
  rw [idNumber, h, BitVec.toNat_or]
  simp only [BitVec.toNat_setWidth, BitVec.toNat_ofNat]
  rw [Nat.mod_eq_of_lt (by omega), Nat.mod_eq_of_lt (by omega), Nat.lor_comm,
    show (b5.toNat % 32) * 256 = (b5.toNat % 32) <<< 8 by rw [Nat.shiftLeft_eq], ← Nat.shiftLeft_add_eq_or_of_lt h0,
    Nat.shiftLeft_eq]
  omega

theorem idRevision_eq (b5 : Byte) : (idRevision b5).toNat = b5.toNat / 32 := by
  revert b5; decide

theorem packId_toNat (num : BlockNumber) (rev : BlockRevision) : (packId num rev).toNat = num.toNat + 8192 * rev.toNat := by
  have h0 : num.toNat < 2 ^ 13 := num.isLt
  have h1 : rev.toNat < 8 := rev.isLt
  rw [packId, BitVec.toNat_or, BitVec.toNat_shiftLeft]
  simp only [BitVec.toNat_setWidth]
  rw [Nat.mod_eq_of_lt (by omega), Nat.mod_eq_of_lt (b := 2 ^ 16) (by omega), Nat.shiftLeft_eq,
    Nat.mod_eq_of_lt (by omega), ← Nat.shiftLeft_eq, Nat.lor_comm, ← Nat.shiftLeft_add_eq_or_of_lt h0, Nat.shiftLeft_eq]
  omega

theorem packId_id (b4 b5 : Byte) : packId (idNumber b4 b5) (idRevision b5) = u16le b4 b5 := by
  apply BitVec.eq_of_toNat_eq
  rw [packId_toNat, idNumber_eq, idRevision_eq, u16le_toNat]; omega

theorem idNumber_packId (num : BlockNumber) (rev : BlockRevision) :
    idNumber ((packId num rev).extractLsb' 0 8) ((packId num rev).extractLsb' 8 8) = num := by
  apply BitVec.eq_of_toNat_eq
  have h0 : num.toNat < 8192 := num.isLt
  have h1 : rev.toNat < 8 := rev.isLt
  rw [idNumber_eq]
  simp only [BitVec.extractLsb'_toNat, packId_toNat, Nat.shiftRight_eq_div_pow]
  omega

theorem idRevision_packId (num : BlockNumber) (rev : BlockRevision) :
    idRevision ((packId num rev).extractLsb' 8 8) = rev := by
  apply BitVec.eq_of_toNat_eq
  have h0 : num.toNat < 8192 := num.isLt
  have h1 : rev.toNat < 8 := rev.isLt
  rw [idRevision_eq]
  simp only [BitVec.extractLsb'_toNat, packId_toNat, Nat.shiftRight_eq_div_pow]
  omega

namespace Machine

theorem memRead_of_le {s : List Byte} {addr n : Nat} (h : addr + n ≤ s.length) :
    memRead s addr n = some (BitVec.ofNat (8 * n) (leNat ((s.drop addr).take n))) := by
  simp [memRead, h]

theorem memRead_none {s : List Byte} {addr n : Nat} (h : s.length < addr + n) : memRead s addr n = none := by
  simp [memRead, Nat.not_le.mpr h]

/-- What a defined read gives, as a number (R64). -/
theorem memRead_toNat {s : List Byte} {addr n : Nat} {v : BitVec (8 * n)} (h : memRead s addr n = some v) :
    addr + n ≤ s.length ∧ v.toNat = leNat ((s.drop addr).take n) := by
  unfold memRead at h
  split at h
  · rename_i hle
    cases h
    refine ⟨hle, ?_⟩
    have := leNat_lt ((s.drop addr).take n)
    rw [BitVec.toNat_ofNat, Nat.mod_eq_of_lt]
    have hl : ((s.drop addr).take n).length = n := by simp; omega
    rw [hl] at this
    rwa [pow_mul]
  · cases h

/-- A header needs 8 bytes (R142). -/
theorem readHeader_isSome (s : List Byte) : (readHeader s).isSome = decide (8 ≤ s.length) := by
  rcases s with _ | ⟨a0, _ | ⟨a1, _ | ⟨a2, _ | ⟨a3, _ | ⟨a4, _ | ⟨a5, _ | ⟨a6, _ | ⟨a7, t⟩⟩⟩⟩⟩⟩⟩⟩ <;> simp [readHeader]

/-- The time block needs 14 bytes (R143). -/
theorem readTime_isSome (f : List Byte) : (readTime f).isSome = decide (14 ≤ f.length) := by
  unfold readTime
  have hl : (f.drop 8).length = f.length - 8 := by simp
  generalize hg : f.drop 8 = g
  rw [hg] at hl
  rcases g with _ | ⟨a0, _ | ⟨a1, _ | ⟨a2, _ | ⟨a3, _ | ⟨a4, _ | ⟨a5, t⟩⟩⟩⟩⟩⟩ <;> simp at hl ⊢ <;> omega

/-- Reading the header looks at the first 8 bytes only. -/
theorem readHeader_append {f : List Byte} {h : RawHeader} (hr : readHeader f = some h) (g : List Byte) :
    readHeader (f ++ g) = some h := by
  rcases f with _ | ⟨a0, _ | ⟨a1, _ | ⟨a2, _ | ⟨a3, _ | ⟨a4, _ | ⟨a5, _ | ⟨a6, _ | ⟨a7, t⟩⟩⟩⟩⟩⟩⟩⟩ <;>
    simp_all [readHeader]

theorem readHeader_take {f : List Byte} {n : Nat} (hn : 8 ≤ n) : readHeader (f.take n) = readHeader f := by
  obtain ⟨m, rfl⟩ : ∃ m, n = m + 8 := ⟨n - 8, by omega⟩
  rcases f with _ | ⟨a0, _ | ⟨a1, _ | ⟨a2, _ | ⟨a3, _ | ⟨a4, _ | ⟨a5, _ | ⟨a6, _ | ⟨a7, t⟩⟩⟩⟩⟩⟩⟩⟩ <;> simp [readHeader]

theorem readHeader_frameBytes (crc : U16) (num : BlockNumber) (rev : BlockRevision) (len : U16) (tow : U32) (wnc : U16)
    (body : List Byte) : readHeader (frameBytes crc num rev len tow wnc body)
      = some { sync := (Config.sync0, Config.sync1), crc := crc, blockNumber := num, blockRevision := rev, length := len } := by
  simp [frameBytes, frameRest, bytes16, bytes32, readHeader, u16le_bytes16, idNumber_packId, idRevision_packId]

theorem readTime_frameBytes (crc : U16) (num : BlockNumber) (rev : BlockRevision) (len : U16) (tow : U32) (wnc : U16)
    (body : List Byte) : readTime (frameBytes crc num rev len tow wnc body) = some (tow, wnc) := by
  simp [frameBytes, frameRest, bytes16, bytes32, readTime, u16le_bytes16, u32le_bytes32]

end Machine

@[simp] theorem frameBytes_length (crc : U16) (num : BlockNumber) (rev : BlockRevision) (len : U16) (tow : U32) (wnc : U16)
    (body : List Byte) : (frameBytes crc num rev len tow wnc body).length = 14 + body.length := by
  simp [frameBytes, frameRest, bytes16, bytes32]; omega

theorem frameBytes_drop4 (crc : U16) (num : BlockNumber) (rev : BlockRevision) (len : U16) (tow : U32) (wnc : U16)
    (body : List Byte) : (frameBytes crc num rev len tow wnc body).drop 4 = frameRest num rev len tow wnc body := by
  simp [frameBytes, bytes16]

theorem frameBytes_drop14 (crc : U16) (num : BlockNumber) (rev : BlockRevision) (len : U16) (tow : U32) (wnc : U16)
    (body : List Byte) : (frameBytes crc num rev len tow wnc body).drop 14 = body := by
  simp [frameBytes, frameRest, bytes16, bytes32]

end Sys2Proof
end

