-- ==== Sys2Proof/Laws/Crc.lean ====
section
/-! SUPPORT. The checksum register: how it takes bytes in, and that it is linear (R131, R134). -/

namespace Sys2Proof.Machine

/-- The checksum goes on from where it stands. -/
theorem crc16_append (a b : List Byte) : crc16 (a ++ b) = b.foldl crcByte (crc16 a) := by simp [crc16]

theorem crc16_snoc (a : List Byte) (x : Byte) : crc16 (a ++ [x]) = crcByte (crc16 a) x := by simp [crc16_append]

/-- One shift is linear over exclusive-or. -/
theorem crcBit_xor (r s : U16) : crcBit (r ^^^ s) = crcBit r ^^^ crcBit s := by
  simp only [crcBit, BitVec.getLsbD_xor, BitVec.shiftLeft_xor_distrib]
  cases r.getLsbD 15 <;> cases s.getLsbD 15 <;>
    simp only [Bool.false_eq_true, Bool.xor_false, Bool.xor_true, Bool.not_false, Bool.not_true, if_true, if_false]
  · rw [BitVec.xor_assoc]
  · rw [BitVec.xor_assoc, BitVec.xor_assoc, BitVec.xor_comm (s <<< 1)]
  · rw [BitVec.xor_assoc, ← BitVec.xor_assoc Config.crcPoly, BitVec.xor_comm Config.crcPoly, BitVec.xor_assoc, BitVec.xor_self,
      BitVec.xor_zero]

theorem crcShift_xor (n : Nat) (r s : U16) : crcShift n (r ^^^ s) = crcShift n r ^^^ crcShift n s := by
  induction n generalizing r s with
  | zero => rfl
  | succ n ih => rw [crcShift, crcBit_xor, ih]; rfl

/-- A register whose high byte is 0 only moves up: no polynomial comes in. -/
theorem crcShift_low : ∀ x : Byte, crcShift 8 (x.setWidth 16) = x.setWidth 16 <<< 8 := by decide +kernel

end Sys2Proof.Machine
end

