-- ==== Sys2Proof/Laws/Decode.lean ====
section
/-! SUPPORT. Assembling and taking apart the fields of the wire format are inverse; what a chunk on the stream port is
read as (R90, R99, R111, R273). -/

namespace Sys2Proof

theorem bytes16_u16le (b0 b1 : Byte) : bytes16 (u16le b0 b1) = [b0, b1] := by
  have h0 := b0.isLt
  have h1 := b1.isLt
  have e0 : (u16le b0 b1).extractLsb' 0 8 = b0 := by
    apply BitVec.eq_of_toNat_eq
    simp only [BitVec.extractLsb'_toNat, u16le_toNat, Nat.shiftRight_eq_div_pow]; omega
  have e1 : (u16le b0 b1).extractLsb' 8 8 = b1 := by
    apply BitVec.eq_of_toNat_eq
    simp only [BitVec.extractLsb'_toNat, u16le_toNat, Nat.shiftRight_eq_div_pow]; omega
  rw [bytes16, e0, e1]

theorem bytes32_u32le (b0 b1 b2 b3 : Byte) : bytes32 (u32le b0 b1 b2 b3) = [b0, b1, b2, b3] := by
  have h0 := b0.isLt
  have h1 := b1.isLt
  have h2 := b2.isLt
  have h3 := b3.isLt
  have e0 : (u32le b0 b1 b2 b3).extractLsb' 0 8 = b0 := by
    apply BitVec.eq_of_toNat_eq
    simp only [BitVec.extractLsb'_toNat, u32le_toNat, Nat.shiftRight_eq_div_pow]; omega
  have e1 : (u32le b0 b1 b2 b3).extractLsb' 8 8 = b1 := by
    apply BitVec.eq_of_toNat_eq
    simp only [BitVec.extractLsb'_toNat, u32le_toNat, Nat.shiftRight_eq_div_pow]; omega
  have e2 : (u32le b0 b1 b2 b3).extractLsb' 16 8 = b2 := by
    apply BitVec.eq_of_toNat_eq
    simp only [BitVec.extractLsb'_toNat, u32le_toNat, Nat.shiftRight_eq_div_pow]; omega
  have e3 : (u32le b0 b1 b2 b3).extractLsb' 24 8 = b3 := by
    apply BitVec.eq_of_toNat_eq
    simp only [BitVec.extractLsb'_toNat, u32le_toNat, Nat.shiftRight_eq_div_pow]; omega
  rw [bytes32, e0, e1, e2, e3]

/-- A chunk is read as a FEED of it, or as the FRAME whose wire bytes it is. -/
theorem decodeStream_cases (c : List Byte) : decodeStream c = .feed c ∨ ∃ crc num rev len tow wnc body,
    decodeStream c = .frame crc num rev len tow wnc body ∧ frameBytes crc num rev len tow wnc body = c := by
  unfold decodeStream
  split
  · split
    · rename_i h
      refine .inr ⟨_, _, _, _, _, _, _, rfl, ?_⟩
      simp [frameBytes, frameRest, bytes16_u16le, bytes32_u32le, packId_id, h.1, h.2]
    · exact .inl rfl
  · exact .inl rfl

/-- The wire bytes of a frame are read back as its fields. -/
theorem decodeStream_frameBytes (crc : U16) (num : BlockNumber) (rev : BlockRevision) (len : U16) (tow : U32) (wnc : U16)
    (body : List Byte) :
    decodeStream (frameBytes crc num rev len tow wnc body) = .frame crc num rev len tow wnc body := by
  simp [frameBytes, frameRest, bytes16, bytes32, decodeStream, u16le_bytes16, u32le_bytes32, idNumber_packId,
    idRevision_packId]

end Sys2Proof
end

