-- ==== Sys2Proof/Laws/Search.lean ====
section
/-! SUPPORT. The two marker searches, said once: FIND is the least occurrence, LASTMARK the greatest (R223, R224); and
the canonical form of `BUF` as cells. -/

namespace Sys2Proof.Machine

/-- An occurrence is the two bytes, both inside the sequence (R223). -/
theorem markerAt_iff {b : List Byte} {i : Nat} :
    markerAt b i = true ↔ b[i]? = some Config.sync0 ∧ b[i + 1]? = some Config.sync1 := by
  have h0 : b[i]? = (b.drop i)[0]? := by simp
  have h1 : b[i + 1]? = (b.drop i)[1]? := by simp
  rw [h0, h1, markerAt]
  rcases b.drop i with _ | ⟨x, _ | ⟨y, t⟩⟩ <;> simp [markerHere]

theorem markerAt_lt {b : List Byte} {i : Nat} (h : markerAt b i = true) : i + 1 < b.length := by
  have := (markerAt_iff.mp h).2
  exact (List.getElem?_eq_some_iff.mp this).1

theorem markerAt_drop (b : List Byte) (n i : Nat) : markerAt (b.drop n) i = markerAt b (n + i) := by
  simp [markerAt]

theorem markerAt_append_left {b c : List Byte} {i : Nat} (h : i + 1 < b.length) : markerAt (b ++ c) i = markerAt b i := by
  rw [Bool.eq_iff_iff, markerAt_iff, markerAt_iff, List.getElem?_append_left (by omega), List.getElem?_append_left h]

theorem markerAt_take {b : List Byte} {n i : Nat} (h : markerAt (b.take n) i = true) : markerAt b i = true := by
  rw [markerAt_iff] at h ⊢
  have h0 := List.getElem?_eq_some_iff.mp h.1
  have h1 := List.getElem?_eq_some_iff.mp h.2
  have l0 := h0.1; have l1 := h1.1
  simp only [List.length_take] at l0 l1
  rw [List.getElem?_take_of_lt (by omega), List.getElem?_take_of_lt (by omega)] at h
  exact h

theorem findFrom_spec (b : List Byte) : ∀ (i : Nat), match findFrom i b with
    | some k => i ≤ k ∧ markerAt b (k - i) = true ∧ ∀ j, j < k - i → markerAt b j = false
    | none => ∀ j, markerAt b j = false := by
  induction b with
  | nil => intro i; simp [findFrom, markerAt, markerHere]
  | cons x t ih =>
    intro i
    by_cases hm : markerHere (x :: t) = true
    · simp [findFrom, hm, markerAt]
    · have hf : markerHere (x :: t) = false := by simpa using hm
      have h0 : ∀ j, markerAt (x :: t) (j + 1) = markerAt t j := fun j => by simp [markerAt]
      have := ih (i + 1)
      simp only [findFrom, hf, Bool.false_eq_true, if_false]
      split at this
      · rename_i k hk
        obtain ⟨hle, hmk, hlt⟩ := this
        refine ⟨by omega, ?_, ?_⟩
        · rw [show k - i = (k - (i + 1)) + 1 by omega, h0]; exact hmk
        · intro j hj
          cases j with
          | zero => simpa [markerAt] using hf
          | succ j => rw [h0]; exact hlt j (by omega)
      · rename_i hk
        intro j
        cases j with
        | zero => simpa [markerAt] using hf
        | succ j => rw [h0]; exact this j

/-- FIND is the least occurrence at or after `p` (R223). -/
theorem findMark_eq_some {b : List Byte} {p i : Nat} :
    findMark b p = some i ↔ p ≤ i ∧ markerAt b i = true ∧ ∀ j, p ≤ j → j < i → markerAt b j = false := by
  have h := findFrom_spec (b.drop p) p
  have key : ∀ k, findMark b p = some k → p ≤ k ∧ markerAt b k = true ∧ ∀ j, p ≤ j → j < k → markerAt b j = false := by
    intro k hk
    rw [findMark] at hk
    rw [hk] at h
    obtain ⟨hle, hm, hlt⟩ := h
    rw [markerAt_drop, show p + (k - p) = k by omega] at hm
    refine ⟨hle, hm, fun j hj hjk => ?_⟩
    have := hlt (j - p) (by omega)
    rwa [markerAt_drop, show p + (j - p) = j by omega] at this
  constructor
  · exact key i
  · rintro ⟨hle, hm, hlt⟩
    cases hf : findMark b p with
    | none =>
      rw [findMark] at hf
      rw [hf] at h
      have := h (i - p)
      rw [markerAt_drop, show p + (i - p) = i by omega, hm] at this
      cases this
    | some k =>
      obtain ⟨hk1, hk2, hk3⟩ := key k hf
      rcases Nat.lt_trichotomy k i with hlt' | heq | hgt
      · rw [hlt k hk1 hlt'] at hk2; cases hk2
      · rw [heq]
      · rw [hk3 i hle hgt] at hm; cases hm

/-- FIND answers none when there is no occurrence at or after `p` (R223). -/
theorem findMark_eq_none {b : List Byte} {p : Nat} : findMark b p = none ↔ ∀ j, p ≤ j → markerAt b j = false := by
  have h := findFrom_spec (b.drop p) p
  constructor
  · intro hf j hj
    rw [findMark] at hf
    rw [hf] at h
    have := h (j - p)
    rwa [markerAt_drop, show p + (j - p) = j by omega] at this
  · intro hall
    cases hf : findMark b p with
    | none => rfl
    | some k =>
      obtain ⟨h1, h2, _⟩ := findMark_eq_some.mp hf
      rw [hall k h1] at h2; cases h2

theorem lastFrom_spec (b : List Byte) : ∀ (i : Nat) (acc : Option Nat), match lastFrom i acc b with
    | some k => (i ≤ k ∧ markerAt b (k - i) = true ∧ ∀ j, k - i < j → markerAt b j = false)
        ∨ (acc = some k ∧ ∀ j, markerAt b j = false)
    | none => acc = none ∧ ∀ j, markerAt b j = false := by
  induction b with
  | nil => intro i acc; cases acc <;> simp [lastFrom, markerAt, markerHere]
  | cons x t ih =>
    intro i acc
    have h0 : ∀ j, markerAt (x :: t) (j + 1) = markerAt t j := fun j => by simp [markerAt]
    have hz : markerAt (x :: t) 0 = markerHere (x :: t) := by simp [markerAt]
    simp only [lastFrom]
    have := ih (i + 1) (if markerHere (x :: t) then some i else acc)
    split at this
    · rename_i k hk
      rcases this with ⟨hle, hm, hlt⟩ | ⟨hacc, hnone⟩
      · refine .inl ⟨by omega, ?_, ?_⟩
        · rw [show k - i = (k - (i + 1)) + 1 by omega, h0]; exact hm
        · intro j hj
          obtain ⟨j, rfl⟩ : ∃ m, j = m + 1 := ⟨j - 1, by omega⟩
          rw [h0]; exact hlt j (by omega)
      · by_cases hmk : markerHere (x :: t) = true
        · simp only [hmk, if_true, Option.some.injEq] at hacc
          subst hacc
          refine .inl ⟨le_refl _, by rw [Nat.sub_self, hz]; exact hmk, ?_⟩
          intro j hj
          obtain ⟨j, rfl⟩ : ∃ m, j = m + 1 := ⟨j - 1, by omega⟩
          rw [h0]; exact hnone j
        · simp only [hmk, Bool.false_eq_true, if_false] at hacc
          refine .inr ⟨hacc, fun j => ?_⟩
          cases j with
          | zero => rw [hz]; simpa using hmk
          | succ j => rw [h0]; exact hnone j
    · rename_i hk
      obtain ⟨hacc, hnone⟩ := this
      by_cases hmk : markerHere (x :: t) = true
      · simp [hmk] at hacc
      · simp only [hmk, Bool.false_eq_true, if_false] at hacc
        refine ⟨hacc, fun j => ?_⟩
        cases j with
        | zero => rw [hz]; simpa using hmk
        | succ j => rw [h0]; exact hnone j

/-- LASTMARK answers none when there is no occurrence (R224). -/
theorem lastMark_eq_none {b : List Byte} : lastMark b = none ↔ ∀ j, markerAt b j = false := by
  have h := lastFrom_spec b 0 none
  constructor
  · intro hl; rw [lastMark] at hl; rw [hl] at h; exact h.2
  · intro hall
    cases hl : lastMark b with
    | none => rfl
    | some k =>
      rw [lastMark] at hl; rw [hl] at h
      rcases h with ⟨_, hm, _⟩ | ⟨hacc, _⟩
      · rw [hall] at hm; cases hm
      · cases hacc

/-- LASTMARK is the greatest occurrence (R224). -/
theorem lastMark_eq_some {b : List Byte} {k : Nat} :
    lastMark b = some k ↔ markerAt b k = true ∧ ∀ j, k < j → markerAt b j = false := by
  have h := lastFrom_spec b 0 none
  have key : ∀ m, lastMark b = some m → markerAt b m = true ∧ ∀ j, m < j → markerAt b j = false := by
    intro m hm
    rw [lastMark] at hm; rw [hm] at h
    rcases h with ⟨_, h1, h2⟩ | ⟨hacc, _⟩
    · exact ⟨h1, h2⟩
    · cases hacc
  constructor
  · exact key k
  · rintro ⟨h1, h2⟩
    cases hl : lastMark b with
    | none => rw [lastMark_eq_none.mp hl k] at h1; cases h1
    | some m =>
      obtain ⟨g1, g2⟩ := key m hl
      rcases Nat.lt_trichotomy m k with hlt | heq | hgt
      · rw [g2 k hlt] at h1; cases h1
      · rw [heq]
      · rw [h2 m hgt] at g1; cases g1

/-- Where there is an occurrence there is a last one, at or after it. -/
theorem lastMark_of_markerAt {b : List Byte} {i : Nat} (h : markerAt b i = true) :
    ∃ m, lastMark b = some m ∧ i ≤ m ∧ markerAt b m = true := by
  cases hl : lastMark b with
  | none => rw [lastMark_eq_none.mp hl i] at h; cases h
  | some m =>
    obtain ⟨h1, h2⟩ := lastMark_eq_some.mp hl
    refine ⟨m, rfl, ?_, h1⟩
    by_contra hc
    rw [h2 i (by omega)] at h; cases h

/-! ### Step 5 and the cells of `BUF` -/

theorem lastBytes_length (n : Nat) (b : List Byte) : (lastBytes n b).length = min n b.length := by
  unfold lastBytes; split
  · simp; omega
  · omega

/-- What step 5 keeps is a suffix, and all of it when it fits (R233). -/
theorem lastBytes_eq_drop (n : Nat) (b : List Byte) : lastBytes n b = b.drop (b.length - n) := by
  unfold lastBytes; split
  · rfl
  · rw [show b.length - n = 0 by omega]; rfl

theorem cellsWf_cellsFrom (a : Nat) (b : List Byte) : cellsWf a (cellsFrom a b) = true := by
  induction b generalizing a with
  | nil => rfl
  | cons x t ih => simp [cellsFrom, cellsWf, ih]

/-- Whatever an operation writes, `BUF` as cells is in the one canonical form. -/
theorem memory_wf (s : State) : Memory.wf s.memory = true := cellsWf_cellsFrom 0 s.buf

/-- The cells and the read of one byte agree. -/
theorem cellsFrom_get (a i : Nat) (b : List Byte) : (cellsFrom a b)[i]? = (b[i]?).map fun x => (a + i, x) := by
  induction b generalizing a i with
  | nil => simp [cellsFrom]
  | cons x t ih =>
    cases i with
    | zero => simp [cellsFrom]
    | succ i => simp [cellsFrom, ih]; cases t[i]? <;> simp; omega

theorem fwKnownIn_iff {others k : Nat} : fwKnownIn others k = true ↔ k ≤ others := by
  cases k <;> simp [fwKnownIn]

theorem fwKnown_iff {k : Nat} : fwKnown k = true ↔ k ≤ Config.fwOthers := fwKnownIn_iff

theorem fwKnown_reset : fwKnown State.reset.fw = true := by
  rw [fwKnown_iff]; have := Config.fwResetKey.isLt; simp only [State.reset, State.resetWith, Config.block]; omega

end Sys2Proof.Machine
end

