-- ==== Sys2Proof/Laws/Extract.lean ====
section
/-! SUPPORT. What EXTRACT can answer, said once, and the well-formed frames it accepts (R101, R168). -/

namespace Sys2Proof.Machine

theorem lengthFormOk_iff {len : U16} : lengthFormOk len = true ↔ len.toNat % 4 = 0 ∧ 14 ≤ len.toNat := by
  simp [lengthFormOk]

/-- The four answers of EXTRACT, each with the tests that lead to it (R168). -/
theorem extract_cases {p : Params} {s : List Byte} {x : Extracted} {d : Datapath} (h : extract p s = some (x, d)) :
    ∃ hd, readHeader s = some hd ∧
      ((s.length < hd.length.toNat ∧ x = .missingBytes hd ∧ d = { candidateRegs hd with status := some .missingBytes }) ∨
       (hd.length.toNat ≤ s.length ∧ lengthFormOk hd.length = false ∧ x = .errorLength hd
          ∧ d = { candidateRegs hd with status := some .errorLength }) ∨
       (hd.length.toNat ≤ s.length ∧ lengthFormOk hd.length = true ∧ frameCrc (s.take hd.length.toNat) ≠ hd.crc
          ∧ x = .errorCrc hd ∧ d = { candidateRegs hd with
              bodylen := some (hd.length - 14), crcacc := some (frameCrc (s.take hd.length.toNat)), status := some .errorCrc }) ∨
       (hd.length.toNat ≤ s.length ∧ lengthFormOk hd.length = true ∧ frameCrc (s.take hd.length.toNat) = hd.crc
          ∧ ∃ t, readTime (s.take hd.length.toNat) = some t ∧ x = .ok (acceptFrame p hd (s.take hd.length.toNat) t)
            ∧ d = { ({ candidateRegs hd with
                bodylen := some (hd.length - 14),
                crcacc := some (frameCrc (s.take hd.length.toNat)) } : Datapath).loadTime t with status := some .ok })) := by
  unfold extract hdrDecode at h
  split at h
  · cases h
  · rename_i hd hh
    refine ⟨hd, hh, ?_⟩
    split at h
    · rename_i hlt
      cases h; exact .inl ⟨hlt, rfl, rfl⟩
    · rename_i hge
      split at h
      · rename_i hf
        cases h; exact .inr (.inl ⟨by omega, hf, rfl, rfl⟩)
      · rename_i hf
        have hf' : lengthFormOk hd.length = true := by simpa using hf
        simp only at h
        split at h
        · rename_i hc
          cases h; exact .inr (.inr (.inl ⟨by omega, hf', hc, rfl, rfl⟩))
        · rename_i hc
          split at h
          · cases h
          · rename_i t ht
            cases h; exact .inr (.inr (.inr ⟨by omega, hf', not_not.mp hc, t, ht, rfl, rfl⟩))

/-- EXTRACT answers on 8 bytes or more (R170). -/
theorem extract_isSome (p : Params) (s : List Byte) : (extract p s).isSome = decide (8 ≤ s.length) := by
  rw [← readHeader_isSome]
  unfold extract hdrDecode
  split
  · rename_i h; simp [h]
  · rename_i hd hh
    rw [hh]
    split
    · rfl
    · split
      · rfl
      · rename_i hge hf
        have hf' := lengthFormOk_iff.mp (by simpa using hf)
        have ht : (readTime (s.take hd.length.toNat)).isSome = true := by
          rw [readTime_isSome]; simp; omega
        obtain ⟨t, ht⟩ := Option.isSome_iff_exists.mp ht
        simp only
        split
        · rfl
        · simp [ht]

theorem wellFormedFrame_iff {f : List Byte} : wellFormedFrame f = true ↔
    ∃ h, readHeader f = some h ∧ 16 ≤ f.length ∧ h.sync = (Config.sync0, Config.sync1) ∧ h.length.toNat = f.length
      ∧ h.length.toNat % 4 = 0 ∧ h.crc = frameCrc f := by
  unfold wellFormedFrame
  split
  · rename_i hn; simp [hn]
  · rename_i h hh; simp [hh, and_assoc]

/-- A header's marker bytes are the first two. -/
theorem readHeader_sync {s : List Byte} {h : RawHeader} (hr : readHeader s = some h) :
    h.sync = (Config.sync0, Config.sync1) ↔ markerAt s 0 = true := by
  rcases s with _ | ⟨a0, _ | ⟨a1, _ | ⟨a2, _ | ⟨a3, _ | ⟨a4, _ | ⟨a5, _ | ⟨a6, _ | ⟨a7, t⟩⟩⟩⟩⟩⟩⟩⟩ <;>
    simp_all [readHeader, markerAt, markerHere]
  rw [← hr]; simp

/-- A well-formed frame is accepted whatever follows it, with its own bytes as the raw span (R101, R164, R167). -/
theorem extract_wellFormed {f : List Byte} (hf : wellFormedFrame f = true) :
    ∃ h t, readHeader f = some h ∧ readTime f = some t ∧ h.length.toNat = f.length
      ∧ ∀ p g, ∃ d, extract p (f ++ g) = some (.ok (acceptFrame p h f t), d) := by
  obtain ⟨h, hr, h16, _, hlen, h4, hcrc⟩ := wellFormedFrame_iff.mp hf
  have ht : (readTime f).isSome = true := by rw [readTime_isSome]; simp; omega
  obtain ⟨t, ht⟩ := Option.isSome_iff_exists.mp ht
  refine ⟨h, t, hr, ht, hlen, fun p g => ?_⟩
  have hform : lengthFormOk h.length = true := lengthFormOk_iff.mpr ⟨h4, by omega⟩
  have hs : (extract p (f ++ g)).isSome = true := by rw [extract_isSome]; simp; omega
  obtain ⟨⟨x, d⟩, hx⟩ := Option.isSome_iff_exists.mp hs
  obtain ⟨hd, hr', hc⟩ := extract_cases hx
  rw [readHeader_append hr g] at hr'
  cases hr'
  simp only [hlen, List.length_append, List.take_left] at hc
  rcases hc with ⟨hlt, _⟩ | ⟨_, hf', _⟩ | ⟨_, _, hne, _⟩ | ⟨_, _, _, t', ht', hx', _⟩
  · omega
  · rw [hform] at hf'; cases hf'
  · exact absurd hcrc.symm hne
  · rw [ht] at ht'; cases ht'
    exact ⟨d, by rw [hx, hx']⟩

/-- What EXTRACT accepts at a marker is a well-formed frame that lies inside the bytes it was given (R101). -/
theorem extract_ok {p : Params} {s : List Byte} {f : Frame} {d : Datapath} (h : extract p s = some (.ok f, d))
    (hm : markerAt s 0 = true) :
    wellFormedFrame f.raw = true ∧ f.raw = s.take f.header.length.toNat ∧ f.header.length.toNat ≤ s.length
      ∧ 16 ≤ f.header.length.toNat ∧ readHeader f.raw = some f.header ∧ timeDecode p.timeConv f.raw = some f.time
      ∧ f.result = regDecode p.decoders f.header.blockNumber f.header.blockRevision (f.raw.drop 14) := by
  obtain ⟨hd, hr, hc⟩ := extract_cases h
  rcases hc with ⟨_, hx, _⟩ | ⟨_, _, hx, _⟩ | ⟨_, _, _, hx, _⟩ | ⟨hle, hform, hcrc, t, ht, hx, _⟩
  · cases hx
  · cases hx
  · cases hx
  · cases hx
    obtain ⟨h4, h14⟩ := lengthFormOk_iff.mp hform
    have hr' : readHeader (s.take hd.length.toNat) = some hd := by rw [readHeader_take (by omega), hr]
    refine ⟨?_, rfl, hle, ?_, hr', ?_, rfl⟩
    · refine wellFormedFrame_iff.mpr ⟨hd, hr', ?_, (readHeader_sync hr).mpr hm, ?_, h4, hcrc.symm⟩
      · simp [acceptFrame]; omega
      · simp [acceptFrame, hle]
    · simp only [acceptFrame]; omega
    · simp [timeDecode, acceptFrame, ht]

/-- `MISSING_BYTES` is exactly a declared length beyond the bytes present (R162). -/
theorem extract_missing_iff {p : Params} {s : List Byte} {x : Extracted} {d : Datapath} {hd : RawHeader}
    (h : extract p s = some (x, d)) (hr : readHeader s = some hd) :
    x.status = .missingBytes ↔ s.length < hd.length.toNat := by
  obtain ⟨hd', hr', hc⟩ := extract_cases h
  rw [hr] at hr'; cases hr'
  rcases hc with ⟨hlt, hx, _⟩ | ⟨hle, _, hx, _⟩ | ⟨hle, _, _, hx, _⟩ | ⟨hle, _, _, t, _, hx, _⟩ <;>
    subst hx <;> simp [Extracted.status] <;> omega

/-- The frame builder of R111 builds well-formed frames. -/
theorem wellFormedFrame_frameBytes {num : BlockNumber} {rev : BlockRevision} {len : U16} {tow : U32} {wnc : U16}
    {body : List Byte} (hl : len.toNat = 14 + body.length) (h4 : len.toNat % 4 = 0) :
    wellFormedFrame (frameBytes (crc16 (frameRest num rev len tow wnc body)) num rev len tow wnc body) = true := by
  refine wellFormedFrame_iff.mpr ⟨_, readHeader_frameBytes _ _ _ _ _ _ _, ?_, rfl, ?_, h4, ?_⟩
  · rw [frameBytes_length]; omega
  · rw [frameBytes_length]; exact hl
  · rw [frameCrc, frameBytes_drop4]

end Sys2Proof.Machine
end

