-- ==== Sys2Proof/Laws/State.lean ====
section
/-! SUPPORT. One lemma per field per named update of the state, so that no later proof unfolds a record update. -/

namespace Sys2Proof.Machine

variable (s : State)

@[simp] theorem State.append_buf (c : List Byte) : (s.append c).buf = s.buf ++ c := rfl
@[simp] theorem State.append_q (c : List Byte) : (s.append c).q = s.q := rfl
@[simp] theorem State.append_limit (c : List Byte) : (s.append c).limit = s.limit := rfl
@[simp] theorem State.append_mode (c : List Byte) : (s.append c).mode = s.mode := rfl
@[simp] theorem State.append_fw (c : List Byte) : (s.append c).fw = s.fw := rfl
@[simp] theorem State.append_phase (c : List Byte) : (s.append c).phase = s.phase := rfl
@[simp] theorem State.append_scan (c : List Byte) : (s.append c).scan = s.scan := rfl
@[simp] theorem State.append_dp (c : List Byte) : (s.append c).dp = s.dp := rfl
@[simp] theorem State.append_port (c : List Byte) : (s.append c).port = s.port := rfl
@[simp] theorem State.append_resp (c : List Byte) : (s.append c).resp = s.resp := rfl
@[simp] theorem State.append_out (c : List Byte) : (s.append c).out = s.out := rfl

@[simp] theorem State.replace_buf (c : List Byte) : (s.replace c).buf = c := rfl
@[simp] theorem State.replace_q (c : List Byte) : (s.replace c).q = s.q := rfl
@[simp] theorem State.replace_limit (c : List Byte) : (s.replace c).limit = s.limit := rfl
@[simp] theorem State.replace_mode (c : List Byte) : (s.replace c).mode = s.mode := rfl
@[simp] theorem State.replace_fw (c : List Byte) : (s.replace c).fw = s.fw := rfl
@[simp] theorem State.replace_phase (c : List Byte) : (s.replace c).phase = s.phase := rfl
@[simp] theorem State.replace_scan (c : List Byte) : (s.replace c).scan = s.scan := rfl
@[simp] theorem State.replace_dp (c : List Byte) : (s.replace c).dp = s.dp := rfl
@[simp] theorem State.replace_port (c : List Byte) : (s.replace c).port = s.port := rfl
@[simp] theorem State.replace_resp (c : List Byte) : (s.replace c).resp = s.resp := rfl
@[simp] theorem State.replace_out (c : List Byte) : (s.replace c).out = s.out := rfl

@[simp] theorem State.clear_buf : (s.clear).buf = [] := rfl
@[simp] theorem State.clear_q : (s.clear).q = s.q := rfl
@[simp] theorem State.clear_limit : (s.clear).limit = s.limit := rfl
@[simp] theorem State.clear_mode : (s.clear).mode = s.mode := rfl
@[simp] theorem State.clear_fw : (s.clear).fw = s.fw := rfl
@[simp] theorem State.clear_phase : (s.clear).phase = s.phase := rfl
@[simp] theorem State.clear_scan : (s.clear).scan = s.scan := rfl
@[simp] theorem State.clear_dp : (s.clear).dp = s.dp := rfl
@[simp] theorem State.clear_port : (s.clear).port = s.port := rfl
@[simp] theorem State.clear_resp : (s.clear).resp = s.resp := rfl
@[simp] theorem State.clear_out : (s.clear).out = s.out := rfl

@[simp] theorem State.retainFrom_buf (i : Nat) : (s.retainFrom i).buf = s.buf.drop i := rfl
@[simp] theorem State.retainFrom_q (i : Nat) : (s.retainFrom i).q = s.q := rfl
@[simp] theorem State.retainFrom_limit (i : Nat) : (s.retainFrom i).limit = s.limit := rfl
@[simp] theorem State.retainFrom_mode (i : Nat) : (s.retainFrom i).mode = s.mode := rfl
@[simp] theorem State.retainFrom_fw (i : Nat) : (s.retainFrom i).fw = s.fw := rfl
@[simp] theorem State.retainFrom_phase (i : Nat) : (s.retainFrom i).phase = s.phase := rfl
@[simp] theorem State.retainFrom_scan (i : Nat) : (s.retainFrom i).scan = s.scan := rfl
@[simp] theorem State.retainFrom_dp (i : Nat) : (s.retainFrom i).dp = s.dp := rfl
@[simp] theorem State.retainFrom_port (i : Nat) : (s.retainFrom i).port = s.port := rfl
@[simp] theorem State.retainFrom_resp (i : Nat) : (s.retainFrom i).resp = s.resp := rfl
@[simp] theorem State.retainFrom_out (i : Nat) : (s.retainFrom i).out = s.out := rfl

@[simp] theorem State.keepLast_buf (n : Nat) : (s.keepLast n).buf = lastBytes n s.buf := rfl
@[simp] theorem State.keepLast_q (n : Nat) : (s.keepLast n).q = s.q := rfl
@[simp] theorem State.keepLast_limit (n : Nat) : (s.keepLast n).limit = s.limit := rfl
@[simp] theorem State.keepLast_mode (n : Nat) : (s.keepLast n).mode = s.mode := rfl
@[simp] theorem State.keepLast_fw (n : Nat) : (s.keepLast n).fw = s.fw := rfl
@[simp] theorem State.keepLast_phase (n : Nat) : (s.keepLast n).phase = s.phase := rfl
@[simp] theorem State.keepLast_scan (n : Nat) : (s.keepLast n).scan = s.scan := rfl
@[simp] theorem State.keepLast_dp (n : Nat) : (s.keepLast n).dp = s.dp := rfl
@[simp] theorem State.keepLast_port (n : Nat) : (s.keepLast n).port = s.port := rfl
@[simp] theorem State.keepLast_resp (n : Nat) : (s.keepLast n).resp = s.resp := rfl
@[simp] theorem State.keepLast_out (n : Nat) : (s.keepLast n).out = s.out := rfl

@[simp] theorem State.enqueue_buf (fs : List Frame) : (s.enqueue fs).buf = s.buf := rfl
@[simp] theorem State.enqueue_q (fs : List Frame) : (s.enqueue fs).q = s.q ++ fs := rfl
@[simp] theorem State.enqueue_limit (fs : List Frame) : (s.enqueue fs).limit = s.limit := rfl
@[simp] theorem State.enqueue_mode (fs : List Frame) : (s.enqueue fs).mode = s.mode := rfl
@[simp] theorem State.enqueue_fw (fs : List Frame) : (s.enqueue fs).fw = s.fw := rfl
@[simp] theorem State.enqueue_phase (fs : List Frame) : (s.enqueue fs).phase = s.phase := rfl
@[simp] theorem State.enqueue_scan (fs : List Frame) : (s.enqueue fs).scan = s.scan := rfl
@[simp] theorem State.enqueue_dp (fs : List Frame) : (s.enqueue fs).dp = s.dp := rfl
@[simp] theorem State.enqueue_port (fs : List Frame) : (s.enqueue fs).port = s.port := rfl
@[simp] theorem State.enqueue_resp (fs : List Frame) : (s.enqueue fs).resp = s.resp := rfl
@[simp] theorem State.enqueue_out (fs : List Frame) : (s.enqueue fs).out = s.out := rfl

@[simp] theorem State.replaceQueue_buf (fs : List Frame) : (s.replaceQueue fs).buf = s.buf := rfl
@[simp] theorem State.replaceQueue_q (fs : List Frame) : (s.replaceQueue fs).q = fs := rfl
@[simp] theorem State.replaceQueue_limit (fs : List Frame) : (s.replaceQueue fs).limit = s.limit := rfl
@[simp] theorem State.replaceQueue_mode (fs : List Frame) : (s.replaceQueue fs).mode = s.mode := rfl
@[simp] theorem State.replaceQueue_fw (fs : List Frame) : (s.replaceQueue fs).fw = s.fw := rfl
@[simp] theorem State.replaceQueue_phase (fs : List Frame) : (s.replaceQueue fs).phase = s.phase := rfl
@[simp] theorem State.replaceQueue_scan (fs : List Frame) : (s.replaceQueue fs).scan = s.scan := rfl
@[simp] theorem State.replaceQueue_dp (fs : List Frame) : (s.replaceQueue fs).dp = s.dp := rfl
@[simp] theorem State.replaceQueue_port (fs : List Frame) : (s.replaceQueue fs).port = s.port := rfl
@[simp] theorem State.replaceQueue_resp (fs : List Frame) : (s.replaceQueue fs).resp = s.resp := rfl
@[simp] theorem State.replaceQueue_out (fs : List Frame) : (s.replaceQueue fs).out = s.out := rfl

@[simp] theorem State.emptyQueue_buf : (s.emptyQueue).buf = s.buf := rfl
@[simp] theorem State.emptyQueue_q : (s.emptyQueue).q = [] := rfl
@[simp] theorem State.emptyQueue_limit : (s.emptyQueue).limit = s.limit := rfl
@[simp] theorem State.emptyQueue_mode : (s.emptyQueue).mode = s.mode := rfl
@[simp] theorem State.emptyQueue_fw : (s.emptyQueue).fw = s.fw := rfl
@[simp] theorem State.emptyQueue_phase : (s.emptyQueue).phase = s.phase := rfl
@[simp] theorem State.emptyQueue_scan : (s.emptyQueue).scan = s.scan := rfl
@[simp] theorem State.emptyQueue_dp : (s.emptyQueue).dp = s.dp := rfl
@[simp] theorem State.emptyQueue_port : (s.emptyQueue).port = s.port := rfl
@[simp] theorem State.emptyQueue_resp : (s.emptyQueue).resp = s.resp := rfl
@[simp] theorem State.emptyQueue_out : (s.emptyQueue).out = s.out := rfl

@[simp] theorem State.setMode_buf (m : BitVec 1) : (s.setMode m).buf = s.buf := rfl
@[simp] theorem State.setMode_q (m : BitVec 1) : (s.setMode m).q = s.q := rfl
@[simp] theorem State.setMode_limit (m : BitVec 1) : (s.setMode m).limit = s.limit := rfl
@[simp] theorem State.setMode_mode (m : BitVec 1) : (s.setMode m).mode = m := rfl
@[simp] theorem State.setMode_fw (m : BitVec 1) : (s.setMode m).fw = s.fw := rfl
@[simp] theorem State.setMode_phase (m : BitVec 1) : (s.setMode m).phase = s.phase := rfl
@[simp] theorem State.setMode_scan (m : BitVec 1) : (s.setMode m).scan = s.scan := rfl
@[simp] theorem State.setMode_dp (m : BitVec 1) : (s.setMode m).dp = s.dp := rfl
@[simp] theorem State.setMode_port (m : BitVec 1) : (s.setMode m).port = s.port := rfl
@[simp] theorem State.setMode_resp (m : BitVec 1) : (s.setMode m).resp = s.resp := rfl
@[simp] theorem State.setMode_out (m : BitVec 1) : (s.setMode m).out = s.out := rfl

@[simp] theorem State.setLimit_buf (n : U16) : (s.setLimit n).buf = s.buf := rfl
@[simp] theorem State.setLimit_q (n : U16) : (s.setLimit n).q = s.q := rfl
@[simp] theorem State.setLimit_limit (n : U16) : (s.setLimit n).limit = n := rfl
@[simp] theorem State.setLimit_mode (n : U16) : (s.setLimit n).mode = s.mode := rfl
@[simp] theorem State.setLimit_fw (n : U16) : (s.setLimit n).fw = s.fw := rfl
@[simp] theorem State.setLimit_phase (n : U16) : (s.setLimit n).phase = s.phase := rfl
@[simp] theorem State.setLimit_scan (n : U16) : (s.setLimit n).scan = s.scan := rfl
@[simp] theorem State.setLimit_dp (n : U16) : (s.setLimit n).dp = s.dp := rfl
@[simp] theorem State.setLimit_port (n : U16) : (s.setLimit n).port = s.port := rfl
@[simp] theorem State.setLimit_resp (n : U16) : (s.setLimit n).resp = s.resp := rfl
@[simp] theorem State.setLimit_out (n : U16) : (s.setLimit n).out = s.out := rfl

@[simp] theorem State.setFw_buf (k : Nat) : (s.setFw k).buf = s.buf := rfl
@[simp] theorem State.setFw_q (k : Nat) : (s.setFw k).q = s.q := rfl
@[simp] theorem State.setFw_limit (k : Nat) : (s.setFw k).limit = s.limit := rfl
@[simp] theorem State.setFw_mode (k : Nat) : (s.setFw k).mode = s.mode := rfl
@[simp] theorem State.setFw_fw (k : Nat) : (s.setFw k).fw = k := rfl
@[simp] theorem State.setFw_phase (k : Nat) : (s.setFw k).phase = s.phase := rfl
@[simp] theorem State.setFw_scan (k : Nat) : (s.setFw k).scan = s.scan := rfl
@[simp] theorem State.setFw_dp (k : Nat) : (s.setFw k).dp = s.dp := rfl
@[simp] theorem State.setFw_port (k : Nat) : (s.setFw k).port = s.port := rfl
@[simp] theorem State.setFw_resp (k : Nat) : (s.setFw k).resp = s.resp := rfl
@[simp] theorem State.setFw_out (k : Nat) : (s.setFw k).out = s.out := rfl

@[simp] theorem State.setScan_buf (r : ScanRegs) : (s.setScan r).buf = s.buf := rfl
@[simp] theorem State.setScan_q (r : ScanRegs) : (s.setScan r).q = s.q := rfl
@[simp] theorem State.setScan_limit (r : ScanRegs) : (s.setScan r).limit = s.limit := rfl
@[simp] theorem State.setScan_mode (r : ScanRegs) : (s.setScan r).mode = s.mode := rfl
@[simp] theorem State.setScan_fw (r : ScanRegs) : (s.setScan r).fw = s.fw := rfl
@[simp] theorem State.setScan_phase (r : ScanRegs) : (s.setScan r).phase = s.phase := rfl
@[simp] theorem State.setScan_scan (r : ScanRegs) : (s.setScan r).scan = some r := rfl
@[simp] theorem State.setScan_dp (r : ScanRegs) : (s.setScan r).dp = s.dp := rfl
@[simp] theorem State.setScan_port (r : ScanRegs) : (s.setScan r).port = s.port := rfl
@[simp] theorem State.setScan_resp (r : ScanRegs) : (s.setScan r).resp = s.resp := rfl
@[simp] theorem State.setScan_out (r : ScanRegs) : (s.setScan r).out = s.out := rfl

@[simp] theorem State.setPhase_buf (p : Phase) : (s.setPhase p).buf = s.buf := rfl
@[simp] theorem State.setPhase_q (p : Phase) : (s.setPhase p).q = s.q := rfl
@[simp] theorem State.setPhase_limit (p : Phase) : (s.setPhase p).limit = s.limit := rfl
@[simp] theorem State.setPhase_mode (p : Phase) : (s.setPhase p).mode = s.mode := rfl
@[simp] theorem State.setPhase_fw (p : Phase) : (s.setPhase p).fw = s.fw := rfl
@[simp] theorem State.setPhase_phase (p : Phase) : (s.setPhase p).phase = p := rfl
@[simp] theorem State.setPhase_scan (p : Phase) : (s.setPhase p).scan = s.scan := rfl
@[simp] theorem State.setPhase_dp (p : Phase) : (s.setPhase p).dp = s.dp := rfl
@[simp] theorem State.setPhase_port (p : Phase) : (s.setPhase p).port = s.port := rfl
@[simp] theorem State.setPhase_resp (p : Phase) : (s.setPhase p).resp = s.resp := rfl
@[simp] theorem State.setPhase_out (p : Phase) : (s.setPhase p).out = s.out := rfl

@[simp] theorem State.setDatapath_buf (d : Datapath) : (s.setDatapath d).buf = s.buf := rfl
@[simp] theorem State.setDatapath_q (d : Datapath) : (s.setDatapath d).q = s.q := rfl
@[simp] theorem State.setDatapath_limit (d : Datapath) : (s.setDatapath d).limit = s.limit := rfl
@[simp] theorem State.setDatapath_mode (d : Datapath) : (s.setDatapath d).mode = s.mode := rfl
@[simp] theorem State.setDatapath_fw (d : Datapath) : (s.setDatapath d).fw = s.fw := rfl
@[simp] theorem State.setDatapath_phase (d : Datapath) : (s.setDatapath d).phase = s.phase := rfl
@[simp] theorem State.setDatapath_scan (d : Datapath) : (s.setDatapath d).scan = s.scan := rfl
@[simp] theorem State.setDatapath_dp (d : Datapath) : (s.setDatapath d).dp = d := rfl
@[simp] theorem State.setDatapath_port (d : Datapath) : (s.setDatapath d).port = s.port := rfl
@[simp] theorem State.setDatapath_resp (d : Datapath) : (s.setDatapath d).resp = s.resp := rfl
@[simp] theorem State.setDatapath_out (d : Datapath) : (s.setDatapath d).out = s.out := rfl

@[simp] theorem State.endFeed_buf : (s.endFeed).buf = s.buf := rfl
@[simp] theorem State.endFeed_q : (s.endFeed).q = s.q := rfl
@[simp] theorem State.endFeed_limit : (s.endFeed).limit = s.limit := rfl
@[simp] theorem State.endFeed_mode : (s.endFeed).mode = s.mode := rfl
@[simp] theorem State.endFeed_fw : (s.endFeed).fw = s.fw := rfl
@[simp] theorem State.endFeed_phase : (s.endFeed).phase = s.phase := rfl
@[simp] theorem State.endFeed_scan : (s.endFeed).scan = none := rfl
@[simp] theorem State.endFeed_dp : (s.endFeed).dp = Datapath.empty := rfl
@[simp] theorem State.endFeed_port : (s.endFeed).port = s.port := rfl
@[simp] theorem State.endFeed_resp : (s.endFeed).resp = s.resp := rfl
@[simp] theorem State.endFeed_out : (s.endFeed).out = s.out := rfl

@[simp] theorem State.respond_buf (r : Response) : (s.respond r).buf = s.buf := rfl
@[simp] theorem State.respond_q (r : Response) : (s.respond r).q = s.q := rfl
@[simp] theorem State.respond_limit (r : Response) : (s.respond r).limit = s.limit := rfl
@[simp] theorem State.respond_mode (r : Response) : (s.respond r).mode = s.mode := rfl
@[simp] theorem State.respond_fw (r : Response) : (s.respond r).fw = s.fw := rfl
@[simp] theorem State.respond_phase (r : Response) : (s.respond r).phase = s.phase := rfl
@[simp] theorem State.respond_scan (r : Response) : (s.respond r).scan = s.scan := rfl
@[simp] theorem State.respond_dp (r : Response) : (s.respond r).dp = s.dp := rfl
@[simp] theorem State.respond_port (r : Response) : (s.respond r).port = s.port := rfl
@[simp] theorem State.respond_resp (r : Response) : (s.respond r).resp = some r := rfl
@[simp] theorem State.respond_out (r : Response) : (s.respond r).out = s.out := rfl

@[simp] theorem State.produce_buf (v : Result) : (s.produce v).buf = s.buf := rfl
@[simp] theorem State.produce_q (v : Result) : (s.produce v).q = s.q := rfl
@[simp] theorem State.produce_limit (v : Result) : (s.produce v).limit = s.limit := rfl
@[simp] theorem State.produce_mode (v : Result) : (s.produce v).mode = s.mode := rfl
@[simp] theorem State.produce_fw (v : Result) : (s.produce v).fw = s.fw := rfl
@[simp] theorem State.produce_phase (v : Result) : (s.produce v).phase = s.phase := rfl
@[simp] theorem State.produce_scan (v : Result) : (s.produce v).scan = s.scan := rfl
@[simp] theorem State.produce_dp (v : Result) : (s.produce v).dp = s.dp := rfl
@[simp] theorem State.produce_port (v : Result) : (s.produce v).port = s.port := rfl
@[simp] theorem State.produce_resp (v : Result) : (s.produce v).resp = s.resp := rfl
@[simp] theorem State.produce_out (v : Result) : (s.produce v).out = some v := rfl

@[simp] theorem State.raise_buf (e : ConfigError) : (s.raise e).buf = s.buf := rfl
@[simp] theorem State.raise_q (e : ConfigError) : (s.raise e).q = s.q := rfl
@[simp] theorem State.raise_limit (e : ConfigError) : (s.raise e).limit = s.limit := rfl
@[simp] theorem State.raise_mode (e : ConfigError) : (s.raise e).mode = s.mode := rfl
@[simp] theorem State.raise_fw (e : ConfigError) : (s.raise e).fw = s.fw := rfl
@[simp] theorem State.raise_phase (e : ConfigError) : (s.raise e).phase = s.phase := rfl
@[simp] theorem State.raise_scan (e : ConfigError) : (s.raise e).scan = s.scan := rfl
@[simp] theorem State.raise_dp (e : ConfigError) : (s.raise e).dp = s.dp := rfl
@[simp] theorem State.raise_port (e : ConfigError) : (s.raise e).port = s.port := rfl
@[simp] theorem State.raise_resp (e : ConfigError) : (s.raise e).resp = some (.error e) := rfl
@[simp] theorem State.raise_out (e : ConfigError) : (s.raise e).out = s.out := rfl

@[simp] theorem State.setPort_buf (ts : List Transaction) : (s.setPort ts).buf = s.buf := rfl
@[simp] theorem State.setPort_q (ts : List Transaction) : (s.setPort ts).q = s.q := rfl
@[simp] theorem State.setPort_limit (ts : List Transaction) : (s.setPort ts).limit = s.limit := rfl
@[simp] theorem State.setPort_mode (ts : List Transaction) : (s.setPort ts).mode = s.mode := rfl
@[simp] theorem State.setPort_fw (ts : List Transaction) : (s.setPort ts).fw = s.fw := rfl
@[simp] theorem State.setPort_phase (ts : List Transaction) : (s.setPort ts).phase = s.phase := rfl
@[simp] theorem State.setPort_scan (ts : List Transaction) : (s.setPort ts).scan = s.scan := rfl
@[simp] theorem State.setPort_dp (ts : List Transaction) : (s.setPort ts).dp = s.dp := rfl
@[simp] theorem State.setPort_port (ts : List Transaction) : (s.setPort ts).port = ts := rfl
@[simp] theorem State.setPort_resp (ts : List Transaction) : (s.setPort ts).resp = s.resp := rfl
@[simp] theorem State.setPort_out (ts : List Transaction) : (s.setPort ts).out = s.out := rfl

end Sys2Proof.Machine
end

