-- ==== Sys2Proof/Laws/Scan.lean ====
section
/-! SUPPORT. The scan loop: what one pass can do, that it always goes forward, and where the loop stops (R225 to R238). -/

namespace Sys2Proof.Machine

/-- What one pass of the loop can do (R226 to R231). -/
theorem scanPass_cases {p : Params} {b : List Byte} {r : ScanRegs} {o : Pass} (h : scanPass p b r = some o) :
    (findMark b r.pivot = none ∧ o = .stop [] .drained r) ∨
    ∃ i, findMark b r.pivot = some i ∧
      ((b.length - i < 14 ∧ ∃ m, r.lastmark = some m ∧ o = .stop (b.drop m) .missingBytes { r with index := some i }) ∨
       (14 ≤ b.length - i ∧ ∃ f d, extract p (b.drop i) = some (.ok f, d)
          ∧ o = .again (({ r with index := some i } : ScanRegs).accept i f)) ∨
       (14 ≤ b.length - i ∧ r.lastmark = some i ∧ (∃ hd d, extract p (b.drop i) = some (.missingBytes hd, d))
          ∧ o = .stop (b.drop i) .missingBytes { r with index := some i }) ∨
       (14 ≤ b.length - i ∧ (∃ x d, extract p (b.drop i) = some (x, d) ∧ x.status ≠ .ok
            ∧ (x.status = .missingBytes → r.lastmark ≠ some i))
          ∧ o = .again (({ r with index := some i } : ScanRegs).skip i))) := by
  unfold scanPass at h
  split at h
  · rename_i hf; cases h; exact .inl ⟨hf, rfl⟩
  · rename_i i hf
    refine .inr ⟨i, hf, ?_⟩
    simp only at h
    split at h
    · rename_i hlt
      unfold ScanRegs.retain at h
      cases hl : r.lastmark with
      | none => simp [hl] at h
      | some m => simp [hl] at h; exact .inl ⟨hlt, m, rfl, by rw [← h]⟩
    · rename_i hge
      have hge' : 14 ≤ b.length - i := Nat.le_of_not_lt hge
      split at h
      · cases h
      · rename_i f d hx
        cases h; exact .inr (.inl ⟨hge', f, d, hx, rfl⟩)
      · rename_i hd d hx
        split at h
        · rename_i hl
          unfold ScanRegs.retain at h
          simp [hl] at h
          exact .inr (.inr (.inl ⟨hge', hl, ⟨hd, d, hx⟩, by rw [← h, hl]⟩))
        · rename_i hl
          cases h
          exact .inr (.inr (.inr ⟨hge', ⟨_, d, hx, by simp [Extracted.status], fun _ => hl⟩, rfl⟩))
      · rename_i hd d hx
        cases h
        exact .inr (.inr (.inr ⟨hge', ⟨_, d, hx, by simp [Extracted.status], by simp [Extracted.status]⟩, rfl⟩))
      · rename_i hd d hx
        cases h
        exact .inr (.inr (.inr ⟨hge', ⟨_, d, hx, by simp [Extracted.status], by simp [Extracted.status]⟩, rfl⟩))

/-- A pass answers: no access is outside its guards (R66). -/
theorem scanPass_isSome (p : Params) (b : List Byte) {r : ScanRegs} (hl : r.lastmark = lastMark b) :
    ∃ o, scanPass p b r = some o := by
  unfold scanPass
  split
  · exact ⟨_, rfl⟩
  · rename_i i hf
    obtain ⟨m, hm, _, _⟩ := lastMark_of_markerAt (findMark_eq_some.mp hf).2.1
    simp only
    split
    · exact ⟨.stop (b.drop m) .missingBytes { r with index := some i }, by simp [ScanRegs.retain, hl, hm]⟩
    · rename_i hge
      have hs : (extract p (b.drop i)).isSome = true := by
        rw [extract_isSome]; simp only [List.length_drop]; simp [Config.minFrame] at hge ⊢; omega
      obtain ⟨⟨x, d⟩, hx⟩ := Option.isSome_iff_exists.mp hs
      rw [hx]
      cases x with
      | ok f => exact ⟨_, rfl⟩
      | missingBytes hd =>
        simp only
        split
        · exact ⟨.stop (b.drop m) .missingBytes { r with index := some i }, by simp [ScanRegs.retain, hl, hm]⟩
        · exact ⟨_, rfl⟩
      | errorLength hd => exact ⟨_, rfl⟩
      | errorCrc hd => exact ⟨_, rfl⟩

/-- Every pass that goes on raises `PIVOT` and keeps `LASTMARK` (R222, R236). -/
theorem scanPass_again {p : Params} {b : List Byte} {r r' : ScanRegs} (h : scanPass p b r = some (.again r')) :
    r.pivot < r'.pivot ∧ r'.lastmark = r.lastmark := by
  rcases scanPass_cases h with ⟨_, ho⟩ | ⟨i, hf, ⟨_, m, _, ho⟩ | ⟨_, f, d, hx, ho⟩ | ⟨_, _, _, ho⟩ | ⟨_, _, ho⟩⟩
  · cases ho
  · cases ho
  · cases ho
    obtain ⟨hle, hm, _⟩ := findMark_eq_some.mp hf
    have := (extract_ok hx (by rw [markerAt_drop]; exact hm)).2.2.2.1
    simp only [ScanRegs.accept]
    exact ⟨by omega, trivial⟩
  · cases ho
  · cases ho
    obtain ⟨hle, _, _⟩ := findMark_eq_some.mp hf
    simp only [ScanRegs.skip]
    exact ⟨by omega, trivial⟩

/-- The passes between two values of the scan registers. -/
abbrev ScanReach (p : Params) (b : List Byte) : ScanRegs → ScanRegs → Prop :=
  Relation.ReflTransGen fun r r' => scanPass p b r = some (.again r')

theorem ScanReach.lastmark {p : Params} {b : List Byte} {r r' : ScanRegs} (h : ScanReach p b r r') :
    r'.lastmark = r.lastmark := by
  induction h with
  | refl => rfl
  | tail _ hs ih => rw [(scanPass_again hs).2, ih]

/-- A property that each pass keeps holds wherever the scan gets. -/
theorem ScanReach.keeps {p : Params} {b : List Byte} {P : ScanRegs → Prop}
    (hstep : ∀ r r', P r → scanPass p b r = some (.again r') → P r') {r r' : ScanRegs} (h : ScanReach p b r r')
    (h0 : P r) : P r' := by
  induction h with
  | refl => exact h0
  | tail _ hs ih => exact hstep _ _ ih hs

/-- The loop always answers (R236, R299). -/
theorem scanLoop_isSome (p : Params) (b : List Byte) (n : Nat) {r : ScanRegs} (hl : r.lastmark = lastMark b) :
    ∃ e, scanLoop p b n r = some e := by
  induction n generalizing r with
  | zero => exact ⟨_, rfl⟩
  | succ n ih =>
    obtain ⟨o, ho⟩ := scanPass_isSome p b hl
    cases o with
    | stop b' ph r' => exact ⟨(b', ph, r'), by simp [scanLoop, ho]⟩
    | again r' =>
      obtain ⟨e, he⟩ := ih (r := r') (by rw [(scanPass_again ho).2, hl])
      exact ⟨e, by simp [scanLoop, ho, he]⟩

/-- With as many passes as bytes left, the loop ends at a pass that stops (R236). -/
theorem scanLoop_stops {p : Params} {b : List Byte} {n : Nat} {r : ScanRegs} {e : List Byte × Phase × ScanRegs}
    (h : scanLoop p b n r = some e) (hn : b.length ≤ n + r.pivot) :
    ∃ r0, ScanReach p b r r0 ∧ scanPass p b r0 = some (.stop e.1 e.2.1 e.2.2) := by
  induction n generalizing r with
  | zero =>
    simp only [scanLoop, Option.some.injEq] at h
    refine ⟨r, .refl, ?_⟩
    have hnone : findMark b r.pivot = none := findMark_eq_none.mpr fun j hj => by
      by_contra hc
      have := markerAt_lt (b := b) (i := j) (by simpa using hc)
      omega
    subst h
    simp [scanPass, hnone]
  | succ n ih =>
    unfold scanLoop at h
    split at h
    · cases h
    · rename_i b' ph r' hp
      cases h; exact ⟨r, .refl, hp⟩
    · rename_i r' hp
      obtain ⟨hlt, _⟩ := scanPass_again hp
      obtain ⟨r0, h1, h2⟩ := ih h (by omega)
      exact ⟨r0, .head hp h1, h2⟩

/-- A pass that stops stays where it is with more fuel, and so the loop does not depend on spare fuel (R236). -/
theorem scanLoop_fuel {p : Params} {b : List Byte} (n k : Nat) (r : ScanRegs) (hn : b.length ≤ n + r.pivot) :
    scanLoop p b (n + k) r = scanLoop p b n r := by
  induction n generalizing r with
  | zero =>
    have hnone : findMark b r.pivot = none := findMark_eq_none.mpr fun j hj => by
      by_contra hc
      have := markerAt_lt (b := b) (i := j) (by simpa using hc)
      omega
    cases k with
    | zero => rfl
    | succ k => simp [scanLoop, scanPass, hnone]
  | succ n ih =>
    rw [show n + 1 + k = (n + k) + 1 by omega]
    unfold scanLoop
    split
    · rfl
    · rfl
    · rename_i r' hp
      exact ih r' (by have := (scanPass_again hp).1; omega)

/-- How a pass stops: at 3a with nothing kept, or with the buffer from its last marker on, at 3b or 3e (R238). -/
theorem scanPass_stop {p : Params} {b b' : List Byte} {ph : Phase} {r r' : ScanRegs}
    (h : scanPass p b r = some (.stop b' ph r')) (hl : r.lastmark = lastMark b) :
    r'.newq = r.newq ∧
    ((ph = .drained ∧ b' = [] ∧ findMark b r.pivot = none) ∨
     (ph = .missingBytes ∧ ∃ i m, findMark b r.pivot = some i ∧ lastMark b = some m ∧ i ≤ m ∧ b' = b.drop m ∧
       ((b'.length < 14) ∨
        (i = m ∧ 14 ≤ b'.length ∧ ∃ hd, readHeader b' = some hd ∧ b'.length < hd.length.toNat)))) := by
  rcases scanPass_cases h with ⟨hf, ho⟩ | ⟨i, hf, ⟨hlt, m, hm, ho⟩ | ⟨_, f, d, hx, ho⟩ | ⟨hge, hm, ⟨hd, d, hx⟩, ho⟩ | ⟨_, _, ho⟩⟩
  · cases ho; exact ⟨rfl, .inl ⟨rfl, rfl, hf⟩⟩
  · cases ho
    rw [hl] at hm
    obtain ⟨m', hm', hle, _⟩ := lastMark_of_markerAt (findMark_eq_some.mp hf).2.1
    rw [hm] at hm'; cases hm'
    exact ⟨rfl, .inr ⟨rfl, i, m, hf, hm, hle, rfl, .inl (by simp only [List.length_drop]; omega)⟩⟩
  · cases ho
  · cases ho
    rw [hl] at hm
    obtain ⟨hd', hr, hc⟩ := extract_cases hx
    have hlen : (b.drop i).length = b.length - i := by simp
    rcases hc with ⟨hlt, hx', _⟩ | ⟨_, _, hx', _⟩ | ⟨_, _, _, hx', _⟩ | ⟨_, _, _, t, _, hx', _⟩
    · exact ⟨rfl, .inr ⟨rfl, i, i, hf, hm, le_refl i, rfl, .inr ⟨rfl, by omega, hd', hr, hlt⟩⟩⟩
    · cases hx'
    · cases hx'
    · cases hx'
  · cases ho

/-- The buffer cut at its last marker begins with it and holds no other (R238). -/
theorem markerAt_drop_last {b : List Byte} {m : Nat} (hm : lastMark b = some m) :
    markerAt (b.drop m) 0 = true ∧ ∀ i, markerAt (b.drop m) i = true → i = 0 := by
  obtain ⟨h1, h2⟩ := lastMark_eq_some.mp hm
  refine ⟨by rw [markerAt_drop]; exact h1, fun i hi => ?_⟩
  rw [markerAt_drop] at hi
  by_contra hc
  rw [h2 (m + i) (by omega)] at hi; cases hi

end Sys2Proof.Machine
end

