-- ==== Sys2Proof/Laws/Feed.lean ====
section
/-! SUPPORT. FEED said once: the state it leaves, and what the scan gave it (R234, R238). -/

namespace Sys2Proof.Machine

/-- Step 1 writes `BUF` alone (R221). -/
theorem feedInput_eq (c : List Byte) (s : State) :
    feedInput c s = { s with buf := if s.mode = 1 then s.buf ++ c else c } := by
  unfold feedInput; split <;> rfl

/-- The state a FEED leaves after its scan kept `b` and gave the phase `ph` and the frames `newq` (R232, R233). -/
def feedResult (s : State) (b : List Byte) (ph : Phase) (newq : List Frame) : State :=
  { s with
    buf := lastBytes s.limit.toNat b
    q := if s.mode = 1 then s.q ++ newq else newq
    phase := ph
    scan := none
    dp := Datapath.empty
    resp := some .ok }

theorem start_lastmark (m : Option Nat) : (ScanRegs.start m).lastmark = m := rfl

/-- What the scan of one FEED gave: a pass that stops, reached from the start by passes that go on. -/
structure ScanEnd (p : Params) (b : List Byte) (kept : List Byte) (ph : Phase) (newq : List Frame) : Prop where
  ended : ∃ r0 r', ScanReach p b (ScanRegs.start (lastMark b)) r0 ∧ scanPass p b r0 = some (.stop kept ph r')
    ∧ r'.newq = newq

/-- FEED within `CHUNK_MAX`: the overflow fault, or the state of `feedResult` (R234, R302). -/
theorem feedWith_run (p : Params) (c : List Byte) (s : State) (hc : chunkTooLong p c = false) :
    ∃ kept ph newq, ScanEnd p (if s.mode = 1 then s.buf ++ c else c) kept ph newq ∧
      feedWith p c s = if queueOverflows p (if s.mode = 1 then s.q ++ newq else newq) then .fault .queueOverflow
        else .next (feedResult s kept ph newq) := by
  obtain ⟨⟨b', ph, r'⟩, he⟩ := scanLoop_isSome p (feedInput c s).buf (feedInput c s).buf.length
    (r := ScanRegs.start (lastMark (feedInput c s).buf)) rfl
  have hstop := scanLoop_stops he (by simp [ScanRegs.start])
  obtain ⟨r0, h1, h2⟩ := hstop
  refine ⟨b', ph, r'.newq, ⟨r0, r', ?_, ?_, rfl⟩, ?_⟩
  · rw [feedInput_eq] at h1; exact h1
  · rw [feedInput_eq] at h2; exact h2
  · rw [feedInput_eq] at he
    simp only [feedWith, hc, Bool.false_eq_true, if_false, feedScan, feedInput_eq, he, Option.map_some, stopScan, beginScan]
    rcases (by decide : ∀ m : BitVec 1, m = 1 ∨ m = 0) s.mode with hm | hm <;>
      simp [feedDeliver, hm, State.newFrames, State.enqueue, State.replaceQueue, State.replace, State.setPhase, State.setScan,
        feedCap, State.keepLast, State.endFeed, State.respond, feedResult]

/-- FEED with a chunk beyond a finite `CHUNK_MAX` (R220). -/
theorem feedWith_tooLong (p : Params) (c : List Byte) (s : State) (hc : chunkTooLong p c = true) :
    feedWith p c s = .next (s.raise .eChunk) := by
  simp [feedWith, hc]

/-- FEED of this machine always completes: no bound is finite (R299). -/
theorem feed_run (c : List Byte) (s : State) :
    ∃ kept ph newq, ScanEnd (Config.params s.fw) (if s.mode = 1 then s.buf ++ c else c) kept ph newq ∧
      feed c s = .next (feedResult s kept ph newq) := by
  obtain ⟨kept, ph, newq, h1, h2⟩ := feedWith_run (Config.params s.fw) c s rfl
  exact ⟨kept, ph, newq, h1, by rw [feed, h2]; rfl⟩

/-- How the scan of a FEED stopped (R238). -/
theorem ScanEnd.stop {p : Params} {b kept : List Byte} {ph : Phase} {newq : List Frame} (h : ScanEnd p b kept ph newq) :
    (ph = .drained ∧ kept = []) ∨
    (ph = .missingBytes ∧ ∃ m, lastMark b = some m ∧ kept = b.drop m ∧
      (kept.length < 14 ∨ (14 ≤ kept.length ∧ ∃ hd, readHeader kept = some hd ∧ kept.length < hd.length.toNat))) := by
  obtain ⟨r0, r', h1, h2, h3⟩ := h.ended
  obtain ⟨_, hs⟩ := scanPass_stop h2 (by rw [h1.lastmark]; rfl)
  rcases hs with ⟨hph, hb, _⟩ | ⟨hph, i, m, _, hm, _, hb, hor⟩
  · exact .inl ⟨hph, hb⟩
  · refine .inr ⟨hph, m, hm, hb, ?_⟩
    rcases hor with h | ⟨_, hge, hd⟩
    · exact .inl h
    · exact .inr ⟨hge, hd⟩

/-- The bytes kept hold a marker at their front only, and are at most 65534 (R238). -/
theorem ScanEnd.kept_front {p : Params} {b kept : List Byte} {ph : Phase} {newq : List Frame}
    (h : ScanEnd p b kept ph newq) : (∀ i, markerAt kept i = true → i = 0) ∧ kept.length ≤ 65534 := by
  rcases h.stop with ⟨_, hb⟩ | ⟨_, m, hm, hb, hor⟩
  · subst hb; exact ⟨fun i hi => by have := markerAt_lt hi; simp at this, by simp⟩
  · refine ⟨by rw [hb]; exact (markerAt_drop_last hm).2, ?_⟩
    rcases hor with h | ⟨_, hd, _, hlt⟩
    · omega
    · have := hd.length.isLt; omega

/-- Every frame the scan produced is a well-formed frame, decoded from its own raw bytes with the parameters of the
FEED (R101, R237). -/
theorem ScanEnd.frames {p : Params} {b kept : List Byte} {ph : Phase} {newq : List Frame}
    (h : ScanEnd p b kept ph newq) : ∀ f ∈ newq, wellFormedFrame f.raw = true ∧ readHeader f.raw = some f.header
      ∧ timeDecode p.timeConv f.raw = some f.time
      ∧ f.result = regDecode p.decoders f.header.blockNumber f.header.blockRevision (f.raw.drop 14) := by
  obtain ⟨r0, r', h1, h2, h3⟩ := h.ended
  have key : ∀ f ∈ r0.newq, wellFormedFrame f.raw = true ∧ readHeader f.raw = some f.header
      ∧ timeDecode p.timeConv f.raw = some f.time
      ∧ f.result = regDecode p.decoders f.header.blockNumber f.header.blockRevision (f.raw.drop 14) := by
    refine h1.keeps (P := fun r => ∀ f ∈ r.newq, wellFormedFrame f.raw = true ∧ readHeader f.raw = some f.header
      ∧ timeDecode p.timeConv f.raw = some f.time
      ∧ f.result = regDecode p.decoders f.header.blockNumber f.header.blockRevision (f.raw.drop 14)) ?_ (by simp [ScanRegs.start])
    intro r r'' hP hs
    rcases scanPass_cases hs with ⟨_, ho⟩ | ⟨i, hf, ⟨_, m, _, ho⟩ | ⟨_, f, d, hx, ho⟩ | ⟨_, _, _, ho⟩ | ⟨_, _, ho⟩⟩
    · cases ho
    · cases ho
    · cases ho
      have ok := extract_ok hx (by rw [markerAt_drop]; exact (findMark_eq_some.mp hf).2.1)
      intro g hg
      simp only [ScanRegs.accept, List.mem_append, List.mem_singleton] at hg
      rcases hg with hg | rfl
      · exact hP g hg
      · exact ⟨ok.1, ok.2.2.2.2.1, ok.2.2.2.2.2.1, ok.2.2.2.2.2.2⟩
    · cases ho
    · cases ho; exact hP
  have hq : r'.newq = r0.newq := (scanPass_stop h2 (by rw [h1.lastmark]; rfl)).1
  rw [← h3, hq]
  exact key

/-- The scan's answer is one: the loop is a function (R171). -/
theorem ScanReach.det {p : Params} {b : List Byte} {r : ScanRegs} {o : Pass} {r1 : ScanRegs}
    (h1 : ScanReach p b r r1) (hs : scanPass p b r1 = some o) (hstop : ∀ r', o ≠ .again r') {r2 : ScanRegs} {o2 : Pass}
    (h2 : ScanReach p b r r2) (hs2 : scanPass p b r2 = some o2) (hstop2 : ∀ r', o2 ≠ .again r') : o = o2 ∧ r1 = r2 := by
  induction h1 using Relation.ReflTransGen.head_induction_on with
  | refl =>
    cases h2 using Relation.ReflTransGen.head_induction_on with
    | refl => rw [hs] at hs2; cases hs2; exact ⟨rfl, rfl⟩
    | head hstep _ => rw [hs] at hstep; cases hstep; exact absurd rfl (hstop _)
  | head hstep _ ih =>
    cases h2 using Relation.ReflTransGen.head_induction_on with
    | refl => rw [hstep] at hs2; cases hs2; exact absurd rfl (hstop2 _)
    | head hstep2 hrest =>
      rw [hstep] at hstep2; cases hstep2
      exact ih hrest

theorem ScanEnd.det {p : Params} {b k1 k2 : List Byte} {ph1 ph2 : Phase} {q1 q2 : List Frame}
    (h1 : ScanEnd p b k1 ph1 q1) (h2 : ScanEnd p b k2 ph2 q2) : k1 = k2 ∧ ph1 = ph2 ∧ q1 = q2 := by
  obtain ⟨r1, r1', a1, b1, c1⟩ := h1.ended
  obtain ⟨r2, r2', a2, b2, c2⟩ := h2.ended
  obtain ⟨he, _⟩ := a1.det b1 (by simp) a2 b2 (by simp)
  cases he
  exact ⟨rfl, rfl, by rw [← c1, c2]⟩

end Sys2Proof.Machine
end

