-- ==== Sys2Proof/Laws/Fields.lean ====
section
/-! SUPPORT. Reads of body fields and of the time block, said once: the value of a read that stays inside its bytes, and
where a read has none (R64, R188 to R196). -/

namespace Sys2Proof.Machine

/-- The sum of R64, one byte at a time. -/
theorem bytesValue_succ (s : List Byte) (off n : Nat) :
    bytesValue s off (n + 1) = (s.getD off 0).toNat + 256 * bytesValue s (off + 1) n := by
  simp only [bytesValue, List.range_succ_eq_map, List.map_cons, List.map_map, List.sum_cons, Nat.add_zero, Nat.mul_zero,
    Nat.pow_zero, Nat.mul_one]
  rw [← List.sum_map_mul_left]
  congr 2
  refine List.map_congr_left fun k _ => ?_
  simp only [Function.comp_apply, Nat.succ_eq_add_one]
  rw [show off + (k + 1) = off + 1 + k by omega, show 8 * (k + 1) = 8 * k + 8 by omega, Nat.pow_add]
  ring

/-- Inside the bytes the sum of R64 is the little-endian value of the slice. -/
theorem bytesValue_eq {s : List Byte} {off n : Nat} (h : off + n ≤ s.length) :
    bytesValue s off n = leNat ((s.drop off).take n) := by
  induction n generalizing off with
  | zero => simp [bytesValue, leNat]
  | succ n ih =>
    have hlt : off < s.length := by omega
    rw [bytesValue_succ, ih (by omega), List.drop_eq_getElem_cons hlt, List.take_succ_cons, leNat,
      List.getD_eq_getElem _ _ hlt]

/-- A read of `n` bytes that stays inside gives their value (R64). -/
theorem memRead_value {s : List Byte} {off n : Nat} (h : off + n ≤ s.length) :
    ∃ v, memRead s off n = some v ∧ v.toNat = bytesValue s off n := by
  refine ⟨_, memRead_of_le h, ?_⟩
  rw [bytesValue_eq h, (memRead_toNat (memRead_of_le h)).2]

/-- The time block's raw fields (R143). -/
theorem readTime_value {f : List Byte} (h : 14 ≤ f.length) : ∃ tow wnc, readTime f = some (tow, wnc) ∧
    tow.toNat = bytesValue f 8 4 ∧ wnc.toNat = bytesValue f 12 2 := by
  rw [bytesValue_eq (by omega), bytesValue_eq (by omega), show f.drop 12 = (f.drop 8).drop 4 by rw [List.drop_drop]]
  have hl : 6 ≤ (f.drop 8).length := by rw [List.length_drop]; omega
  unfold readTime
  generalize f.drop 8 = g at hl ⊢
  obtain _ | ⟨a0, _ | ⟨a1, _ | ⟨a2, _ | ⟨a3, _ | ⟨a4, _ | ⟨a5, t⟩⟩⟩⟩⟩⟩ := g
  all_goals first | (exfalso; simp only [List.length_cons, List.length_nil] at hl; omega) | skip
  refine ⟨_, _, rfl, ?_, ?_⟩
  · rw [u32le_toNat]; rfl
  · rw [u16le_toNat]; rfl

/-- An optional sentinel that matches makes the value absent (R186). -/
theorem sentOpt_eq {n : Nat} (raw : BitVec n) (sentinel : Option (BitVec n)) :
    sentOpt raw sentinel = if sentinel = some raw then none else some raw := by
  cases sentinel with
  | none => rfl
  | some v => simp only [sentOpt, sent, Option.some.injEq, eq_comm]

/-- An unsigned field inside the body (R188 to R190). -/
theorem readUnsigned_value {n : Nat} {body : List Byte} {off : Nat} (h : off + n ≤ body.length)
    (sentinel : Option (BitVec (8 * n))) : ∃ raw, raw.toNat = bytesValue body off n ∧
      readUnsigned n body off sentinel = some (if sentinel = some raw then none else some raw) := by
  obtain ⟨v, hv, hn⟩ := memRead_value h
  exact ⟨v, hn, by rw [readUnsigned, hv, Option.map_some, sentOpt_eq]⟩

/-- A signed field inside the body (R191). -/
theorem readSigned_value {n : Nat} {body : List Byte} {off : Nat} (h : off + n ≤ body.length)
    (sentinel : Option (BitVec (8 * n))) : ∃ raw, raw.toNat = bytesValue body off n ∧
      readSigned n body off sentinel = some (if sentinel = some raw then none else some raw.toInt) := by
  obtain ⟨v, hv, hn⟩ := memRead_value h
  refine ⟨v, hn, ?_⟩
  rw [readSigned, hv, Option.map_some, sentOpt_eq]
  split <;> rfl

theorem readUnsigned_none {n : Nat} {body : List Byte} {off : Nat} (h : body.length < off + n)
    (sentinel : Option (BitVec (8 * n))) : readUnsigned n body off sentinel = none := by
  rw [readUnsigned, memRead_none h]; rfl

theorem readSigned_none {n : Nat} {body : List Byte} {off : Nat} (h : body.length < off + n)
    (sentinel : Option (BitVec (8 * n))) : readSigned n body off sentinel = none := by
  rw [readSigned, memRead_none h]; rfl

/-- A field is readable exactly when it lies inside the body (R188 to R193). -/
theorem readField_isSome (kind : FieldKind) (body : List Byte) (off : Nat) :
    (readField kind body off).isSome = decide (off + kind.size ≤ body.length) := by
  have key : ∀ n, (memRead body off n).isSome = decide (off + n ≤ body.length) := by
    intro n; unfold memRead; split <;> simp_all
  cases kind <;> simp [readField, fldU8, fldU16, fldU32, fldI8, fldI16, fldI32, fldF32, fldF64, readUnsigned, readSigned,
    FieldKind.size, key] <;> rfl

/-- A field operation that has a value answers it (R188 to R193). -/
theorem yieldOr_field {v : Option FieldValue} {x : FieldValue} (h : v = some x) (why : Refusal) (s : State) :
    yieldOr why (v.map .field) s = .next { s with out := some (.field x) } := by
  rw [h]; rfl

/-- The padding behind `endOff` (R196). -/
theorem fldPad_cases (body : List Byte) (endOff : Nat) :
    (body.length < endOff ∧ fldPad body endOff = none) ∨ (endOff = body.length ∧ fldPad body endOff = some none) ∨
    (endOff < body.length ∧ fldPad body endOff = some (some (leNat (body.drop endOff)))) := by
  unfold fldPad
  split
  · exact .inl ⟨‹_›, rfl⟩
  · split
    · exact .inr (.inl ⟨‹_›, rfl⟩)
    · exact .inr (.inr ⟨by omega, rfl⟩)

/-- What an internal operation with a contract answers. -/
theorem yieldOr_next {why : Refusal} {v : Option Result} {s t : State} (h : yieldOr why v s = .next t) :
    ∃ r, v = some r ∧ t = s.produce r := by
  cases v with
  | none => cases h
  | some r => cases h; exact ⟨r, rfl, rfl⟩

end Sys2Proof.Machine
end

