-- ==== Sys2Proof/Laws/Host.lean ====
section
/-! SUPPORT. The setters and RESET, said once, under any parameters of the block (R7, R263, R264, R270, R333). -/

namespace Sys2Proof.Machine

/-- This machine's parameters are a set that a block can be built with (R333). -/
theorem block_legal : Config.block.Legal where
  fwReset_known := by have := Config.fwResetKey.isLt; simp only [Config.block]; omega
  limitMax_pos := by decide
  chunkMax_pos := by intro m h; cases h
  queueCap_pos := by intro m h; cases h

theorem limitLegal_iff {max : Nat} {n : U16} : limitLegal max n = true ↔ n.toNat ≠ 0 ∧ n.toNat ≤ max := by
  simp [limitLegal]

theorem writeLimit_legal {b : BlockParams} {n : U16} (h0 : n.toNat ≠ 0) (h : n.toNat ≤ b.limitMax) (s : State) :
    writeLimit b n s = { s with limit := n, resp := some .ok } := by
  rw [writeLimit, if_pos (limitLegal_iff.mpr ⟨h0, h⟩)]; rfl

theorem writeLimit_illegal {b : BlockParams} {n : U16} (h : n.toNat = 0 ∨ b.limitMax < n.toNat) (s : State) :
    writeLimit b n s = { s with resp := some (.error .eLimit) } := by
  rw [writeLimit, if_neg (by rw [limitLegal_iff]; omega)]; rfl

theorem writeFw_known {b : BlockParams} {k : Nat} (h : k ≤ b.fwOthers) (s : State) :
    writeFw b k s = { s with fw := k, resp := some .ok } := by
  rw [writeFw, if_pos (fwKnownIn_iff.mpr h)]; rfl

theorem writeFw_unknown {b : BlockParams} {k : Nat} (h : b.fwOthers < k) (s : State) :
    writeFw b k s = { s with resp := some (.error .eFw) } := by
  rw [writeFw, if_neg (by rw [fwKnownIn_iff]; omega)]; rfl

/-- RESET leaves the reset state, its answer, and what the host has yet to present (R270). -/
theorem resetBlock_eq (b : BlockParams) (s : State) :
    resetBlock b s = { State.resetWith b with port := s.port, resp := some .ok } := rfl

end Sys2Proof.Machine
end

