-- ==== Sys2Proof/Laws/Layout.lean ====
section
/-! SUPPORT. The generic decoder of a layout, said once (R195 to R199). -/

namespace Sys2Proof.Machine

theorem minRev_toNat (a b : BlockRevision) : (minRev a b).toNat = min a.toNat b.toNat := by
  unfold minRev
  split
  · rename_i h; rw [BitVec.le_def] at h; omega
  · rename_i h; rw [BitVec.le_def] at h; omega

theorem foldl_max_ge (fields : List FieldSpec) (e : Nat) :
    e ≤ fields.foldl (fun e f => max e (f.off + f.kind.size)) e ∧
    ∀ f ∈ fields, f.off + f.kind.size ≤ fields.foldl (fun e f => max e (f.off + f.kind.size)) e := by
  induction fields generalizing e with
  | nil => simp
  | cons g gs ih =>
    obtain ⟨h1, h2⟩ := ih (max e (g.off + g.kind.size))
    rw [List.foldl_cons]
    refine ⟨by omega, fun f hf => ?_⟩
    rcases List.mem_cons.mp hf with rfl | hf
    · omega
    · exact h2 f hf

theorem foldl_max_attained (fields : List FieldSpec) (e : Nat) :
    fields.foldl (fun e f => max e (f.off + f.kind.size)) e = e ∨
    ∃ f ∈ fields, f.off + f.kind.size = fields.foldl (fun e f => max e (f.off + f.kind.size)) e := by
  induction fields generalizing e with
  | nil => exact .inl rfl
  | cons g gs ih =>
    rw [List.foldl_cons]
    rcases ih (max e (g.off + g.kind.size)) with h | ⟨f, hf, he⟩
    · rcases Nat.le_total e (g.off + g.kind.size) with hle | hle
      · exact .inr ⟨g, List.mem_cons_self, by omega⟩
      · exact .inl (by omega)
    · exact .inr ⟨f, List.mem_cons_of_mem _ hf, he⟩

/-- The end of some fields is at or behind each of them (R199). -/
theorem le_fieldsEnd {fields : List FieldSpec} {f : FieldSpec} (h : f ∈ fields) : f.off + f.kind.size ≤ fieldsEnd fields :=
  (foldl_max_ge fields 0).2 f h

/-- The end of some fields is that of one of them, 0 for none (R199). -/
theorem fieldsEnd_attained (fields : List FieldSpec) :
    fields = [] ∧ fieldsEnd fields = 0 ∨ ∃ f ∈ fields, f.off + f.kind.size = fieldsEnd fields := by
  cases fields with
  | nil => exact .inl ⟨rfl, rfl⟩
  | cons g gs =>
    rcases foldl_max_attained (g :: gs) 0 with h | h
    · refine .inr ⟨g, List.mem_cons_self, ?_⟩
      have := (foldl_max_ge (g :: gs) 0).2 g List.mem_cons_self
      unfold fieldsEnd; omega
    · exact .inr h

/-- Fields that lie inside the body are all read, in their order. -/
theorem readSpecs_of_inside {body : List Byte} {fs : List FieldSpec} (h : ∀ f ∈ fs, f.off + f.kind.size ≤ body.length) :
    ∃ vs, readSpecs body fs = some vs ∧
      List.Forall₂ (fun f nv => nv.1 = f.name ∧ readField f.kind body f.off = some nv.2) fs vs := by
  induction fs with
  | nil => exact ⟨[], rfl, .nil⟩
  | cons f fs ih =>
    obtain ⟨vs, hvs, h2⟩ := ih fun g hg => h g (List.mem_cons_of_mem _ hg)
    have hs : (readField f.kind body f.off).isSome = true := by
      rw [readField_isSome]; simpa using h f List.mem_cons_self
    obtain ⟨v, hv⟩ := Option.isSome_iff_exists.mp hs
    exact ⟨(f.name, v) :: vs, by simp [readSpecs, readSpec, hv, hvs], .cons ⟨rfl, hv⟩ h2⟩

/-- What DECODE_LAYOUT answers: no body when it is too short, otherwise every present field and the padding (R198,
R199). -/
theorem decodeLayout_cases (name : String) (fields : List FieldSpec) (maxrev rev : BlockRevision) (body : List Byte) :
    (body.length < fieldsEnd (presentFields fields (minRev rev maxrev)) ∧
      decodeLayout name fields maxrev rev body = { name := name, body := none }) ∨
    (fieldsEnd (presentFields fields (minRev rev maxrev)) ≤ body.length ∧ ∃ vs pad,
      decodeLayout name fields maxrev rev body = { name := name, body := some (.layout { fields := vs, padding := pad }) } ∧
      readSpecs body (presentFields fields (minRev rev maxrev)) = some vs ∧
      List.Forall₂ (fun f nv => nv.1 = f.name ∧ readField f.kind body f.off = some nv.2)
        (presentFields fields (minRev rev maxrev)) vs ∧
      fldPad body (fieldsEnd (presentFields fields (minRev rev maxrev))) = some pad) := by
  unfold decodeLayout
  simp only
  by_cases hlt : body.length < fieldsEnd (presentFields fields (minRev rev maxrev))
  · exact .inl ⟨hlt, by rw [if_pos hlt]⟩
  · refine .inr ⟨by omega, ?_⟩
    rw [if_neg hlt]
    obtain ⟨vs, hvs, h2⟩ := readSpecs_of_inside (body := body) (fs := presentFields fields (minRev rev maxrev))
      fun f hf => le_trans (le_fieldsEnd hf) (by omega)
    rcases fldPad_cases body (fieldsEnd (presentFields fields (minRev rev maxrev))) with ⟨h, _⟩ | ⟨_, h⟩ | ⟨_, h⟩
    · exact absurd h hlt
    · exact ⟨vs, none, by rw [hvs, h], hvs, h2, h⟩
    · exact ⟨vs, _, by rw [hvs, h], hvs, h2, h⟩

/-! ### The contract of a layout (R195) -/

theorem fieldKind_size_pos (k : FieldKind) : 0 < k.size := by cases k <;> simp [FieldKind.size]

theorem sortedByOffset_pairwise {fields : List FieldSpec} (h : sortedByOffset fields = true) :
    fields.Pairwise fun a b => a.off ≤ b.off := by
  induction fields with
  | nil => exact .nil
  | cons a l ih =>
    cases l with
    | nil => simp
    | cons b rest =>
      simp only [sortedByOffset, Bool.and_eq_true, decide_eq_true_eq] at h
      have hb := ih h.2
      refine List.pairwise_cons.mpr ⟨fun c hc => ?_, hb⟩
      rcases List.mem_cons.mp hc with rfl | hc
      · exact h.1
      · exact le_trans h.1 ((List.pairwise_cons.mp hb).1 c hc)

/-- A field that a later revision adds stands at or beyond the end of the earlier one's fields (R195). -/
theorem layoutLegal_appends {fields : List FieldSpec} {maxrev : BlockRevision} (h : layoutLegal fields maxrev = true)
    {f : FieldSpec} (hf : f ∈ fields) {r : BlockRevision} (hr : r < f.since) : fieldsEnd (presentFields fields r) ≤ f.off := by
  simp only [layoutLegal, appendsFields, Bool.and_eq_true, List.all_eq_true, decide_eq_true_eq] at h
  have hle := h.1.2 f hf
  rcases fieldsEnd_attained (presentFields fields r) with ⟨_, h0⟩ | ⟨g, hg, he⟩
  · omega
  · rw [← he]
    refine le_trans (le_fieldsEnd ?_) hle
    simp only [presentFields, List.mem_filter, decide_eq_true_eq] at hg ⊢
    exact ⟨hg.1, by have := hg.2; bv_omega⟩

/-- The fields of an earlier revision are the first fields of every later one (R195). -/
theorem presentFields_prefix {fields : List FieldSpec} {maxrev rev later : BlockRevision}
    (h : layoutLegal fields maxrev = true) (hr : rev ≤ later) :
    presentFields fields rev <+: presentFields fields later := by
  have happ := @layoutLegal_appends fields maxrev h
  have hs : fields.Pairwise fun a b => b.since ≤ rev → a.since ≤ rev := by
    simp only [layoutLegal, Bool.and_eq_true] at h
    refine List.Pairwise.imp_of_mem (fun {a b} ha hb hab hbr => ?_) (sortedByOffset_pairwise h.1.1.1)
    by_contra hc
    have h1 := happ ha (BitVec.not_le.mp hc)
    have h2 : b.off + b.kind.size ≤ fieldsEnd (presentFields fields rev) := le_fieldsEnd (by simp [presentFields, hb, hbr])
    have := fieldKind_size_pos b.kind
    omega
  clear happ h
  unfold presentFields
  induction fields with
  | nil => simp
  | cons a l ih =>
    obtain ⟨ha, hl⟩ := List.pairwise_cons.mp hs
    by_cases hp : a.since ≤ rev
    · have hq : a.since ≤ later := BitVec.le_trans hp hr
      simpa [List.filter_cons, hp, hq] using ih hl
    · have : l.filter (fun f => decide (f.since ≤ rev)) = [] := by
        simp only [List.filter_eq_nil_iff, decide_eq_true_eq]
        exact fun b hb hbr => hp (ha b hb hbr)
      simp [List.filter_cons, hp, this]

/-- A later known revision has more fields (R195). -/
theorem presentFields_length_lt {fields : List FieldSpec} {maxrev rev later : BlockRevision}
    (h : layoutLegal fields maxrev = true) (hr : rev < later) (hm : later ≤ maxrev) :
    (presentFields fields rev).length < (presentFields fields later).length := by
  have hp := presentFields_prefix h (BitVec.le_of_lt hr)
  refine lt_of_le_of_ne hp.length_le fun he => ?_
  have heq := hp.eq_of_length he
  simp only [layoutLegal, revisionsGrow, Bool.and_eq_true, List.all_eq_true, List.any_eq_true, decide_eq_true_eq,
    List.mem_range] at h
  rw [BitVec.lt_def] at hr
  rw [BitVec.le_def] at hm
  obtain ⟨f, hf, hs⟩ := h.2 (later.toNat - 1) (by omega)
  have hin : f ∈ presentFields fields later := by
    simp only [presentFields, List.mem_filter, decide_eq_true_eq, BitVec.le_def]; exact ⟨hf, by omega⟩
  rw [← heq] at hin
  simp only [presentFields, List.mem_filter, decide_eq_true_eq, BitVec.le_def] at hin
  omega

end Sys2Proof.Machine
end

