-- ==== Sys2Proof/Laws/PerInstr.lean ====
section
/-! SUPPORT. What holds of every operation as syntax, constructor by constructor: an operation is presented in as many
transactions as its expansion has operations, an internal operation in none (R107, R108, R110). -/

namespace Sys2Proof.Laws.EncodedWords

/-- The number of transactions of an operation. -/
def Statement (i : Instr) : Prop := (encode i).length = if i.format = .internal then 0 else (expansion i).length

theorem feed (chunk : List Byte) : Statement (.feed chunk) := rfl
theorem drain : Statement .drain := rfl
theorem setMode (m : BitVec 1) : Statement (.setMode m) := rfl
theorem setLimit (n : U16) : Statement (.setLimit n) := rfl
theorem setFw (k : Nat) : Statement (.setFw k) := rfl
theorem getMode : Statement .getMode := rfl
theorem getLimit : Statement .getLimit := rfl
theorem getFw : Statement .getFw := rfl
theorem getBuf : Statement .getBuf := rfl
theorem getStatus : Statement .getStatus := rfl
theorem reset : Statement .reset := rfl
theorem reserved0 : Statement .reserved0 := rfl
theorem reservedB : Statement .reservedB := rfl
theorem reservedC : Statement .reservedC := rfl
theorem reservedD : Statement .reservedD := rfl
theorem reservedE : Statement .reservedE := rfl
theorem reservedHi (h o : BitVec 4) : Statement (.reservedHi h o) := rfl
theorem frame (crc : U16) (num : BlockNumber) (rev : BlockRevision) (len : U16) (tow : U32) (wnc : U16) (body : List Byte) :
    Statement (.frame crc num rev len tow wnc body) := rfl
theorem crc16 (s : List Byte) : Statement (.crc16 s) := rfl
theorem hdrDecode (s : List Byte) : Statement (.hdrDecode s) := rfl
theorem timeDecode (f : List Byte) : Statement (.timeDecode f) := rfl
theorem sentN (n : Nat) (raw sentinel : BitVec n) : Statement (.sentN n raw sentinel) := rfl
theorem extract (s : List Byte) : Statement (.extract s) := rfl
theorem regDecode (num : BlockNumber) (rev : BlockRevision) (body : List Byte) :
    Statement (.regDecode num rev body) := rfl
theorem find (p : Nat) : Statement (.find p) := rfl
theorem lastmark : Statement .lastmark := rfl
theorem fldU8 (body : List Byte) (off : Nat) (sentinel : Option (BitVec 8)) :
    Statement (.fldU8 body off sentinel) := rfl
theorem fldU16 (body : List Byte) (off : Nat) (sentinel : Option (BitVec 16)) :
    Statement (.fldU16 body off sentinel) := rfl
theorem fldU32 (body : List Byte) (off : Nat) (sentinel : Option (BitVec 32)) :
    Statement (.fldU32 body off sentinel) := rfl
theorem fldI8 (body : List Byte) (off : Nat) (sentinel : Option (BitVec 8)) :
    Statement (.fldI8 body off sentinel) := rfl
theorem fldI16 (body : List Byte) (off : Nat) (sentinel : Option (BitVec 16)) :
    Statement (.fldI16 body off sentinel) := rfl
theorem fldI32 (body : List Byte) (off : Nat) (sentinel : Option (BitVec 32)) :
    Statement (.fldI32 body off sentinel) := rfl
theorem fldF32 (body : List Byte) (off : Nat) (sentinel : Option (BitVec 32)) :
    Statement (.fldF32 body off sentinel) := rfl
theorem fldF64 (body : List Byte) (off : Nat) (sentinel : Option (BitVec 64)) :
    Statement (.fldF64 body off sentinel) := rfl
theorem fldBits (w : Nat) (v : BitVec w) (lo width : Nat) : Statement (.fldBits w v lo width) := rfl
theorem fldPad (body : List Byte) (endOff : Nat) : Statement (.fldPad body endOff) := rfl
theorem decodeLayout (blockName : String) (fields : List FieldSpec) (maxrev rev : BlockRevision) (body : List Byte) :
    Statement (.decodeLayout blockName fields maxrev rev body) := rfl
theorem parse (chunk : List Byte) : Statement (.parse chunk) := rfl
theorem setModeAcc : Statement .setModeAcc := rfl
theorem setModeRep : Statement .setModeRep := rfl
theorem flush : Statement .flush := rfl
theorem feedb (b : Byte) : Statement (.feedb b) := rfl

end Sys2Proof.Laws.EncodedWords
end

