-- ==== Sys2Proof/Tests/Slice0.lean ====
section
/-! SUPPORT. The model's own tests: the checks of WellFormed, words written out from the spec's encodings, vectors of
spec/95_test_vectors.md (named V1 to V9 there), and for each statement with hypotheses a state and operands that meet
them. -/

namespace Sys2Proof.Tests

open Sys2Proof.Machine

-- The checksum of a frame is some hundred shifts deep.
set_option maxRecDepth 20000

/-! ### Helpers -/

/-- A field of the next state. -/
def after {α : Type} (o : Host.Outcome State Fault Refusal) (f : State → α) : Option α :=
  match o with
  | .next t => some (f t)
  | .fault _ => none
  | .refused _ => none

/-- The fault, if there is one. -/
def stopOf (o : Host.Outcome State Fault Refusal) : Option Fault :=
  match o with
  | .next _ => none
  | .fault r => some r
  | .refused _ => none

/-- Parameters without a decoder, whose time conversion shows its arguments. -/
def p0 : Params where
  decoders := fun _ => none
  timeConv := fun wnc tow => (⟨wnc.toNat⟩, ⟨tow.toNat⟩)
  chunkMax := none
  queueCap := none

/-- Right after reset, under firmware key 0. -/
def s0 : State := { State.reset with fw := 0 }

/-- Frame A of the vectors. -/
def frameA : List Byte :=
  [0x24, 0x40, 0x83, 0xBA, 0xA1, 0x0F, 0x20, 0x00, 0x00, 0x70, 0x99, 0x14, 0x98, 0x08, 0x01, 0x02, 0x03, 0x04, 0x05, 0x06,
   0x07, 0x08, 0x09, 0x0A, 0x0B, 0x0C, 0x0D, 0x0E, 0x0F, 0x10, 0x11, 0x12]

/-- Frame B of the vectors. -/
def frameB : List Byte :=
  [0x24, 0x40, 0xDA, 0xC5, 0x1A, 0x57, 0x10, 0x00, 0xFF, 0xFF, 0xFF, 0xFF, 0xFF, 0xFF, 0xAA, 0x55]

/-- The spurious candidate S4 with 8 zero bytes (V4.9). -/
def shortLength : List Byte := [0x24, 0x40, 0x00, 0x00, 0x01, 0x00, 0x08, 0x00, 0, 0, 0, 0, 0, 0, 0, 0]

/-- The spurious candidate S2 (V4.7). -/
def wrongCrc : List Byte := [0x24, 0x40, 0x00, 0x00, 0x01, 0x00, 0x10, 0x00, 0x01, 0x02, 0x03, 0x04, 0x05, 0x06, 0x07, 0x08]

/-! ### WellFormed: an ill-formed term for each check, refused, beside a well-formed one -/

theorem test_wf_setFw_key_too_wide : (Instr.setFw (256 ^ fwBytes)).wellFormed = false := by simp [Instr.wellFormed]
theorem test_wf_reservedHi_low : (Instr.reservedHi 0 1).wellFormed = false ∧ (Instr.reservedHi 8 1).wellFormed = true := by decide
theorem test_wf_frame_B : (Instr.frame 0xC5DA 5914 2 16 0xFFFFFFFF 0xFFFF [0xAA, 0x55]).wellFormed = true := by decide
theorem test_wf_frame_length_not_its_own : (Instr.frame 0xC5DA 5914 2 20 0xFFFFFFFF 0xFFFF [0xAA, 0x55]).wellFormed = false := by decide
theorem test_wf_frame_length_not_times_4 : (Instr.frame 0 5914 2 15 0 0 [0xAA]).wellFormed = false := by decide
theorem test_wf_frame_checksum : (Instr.frame 0xC5DB 5914 2 16 0xFFFFFFFF 0xFFFF [0xAA, 0x55]).wellFormed = false := by decide
theorem test_wf_hdrDecode_7 : (Instr.hdrDecode (frameA.take 7)).wellFormed = false := by decide
theorem test_wf_timeDecode_13 : (Instr.timeDecode (frameA.take 13)).wellFormed = false := by decide
theorem test_wf_extract_7 : (Instr.extract (frameA.take 7)).wellFormed = false := by decide
theorem test_wf_fields_outside :
    (Instr.fldU8 [1] 1 none).wellFormed = false ∧ (Instr.fldU16 [1] 0 none).wellFormed = false ∧
    (Instr.fldU32 [1, 2, 3] 0 none).wellFormed = false ∧ (Instr.fldI8 [] 0 none).wellFormed = false ∧
    (Instr.fldI16 [1, 2] 1 none).wellFormed = false ∧ (Instr.fldI32 [1, 2, 3] 0 none).wellFormed = false ∧
    (Instr.fldF32 [1, 2, 3] 0 none).wellFormed = false ∧ (Instr.fldF64 [1, 2, 3, 4] 0 none).wellFormed = false := by decide
theorem test_wf_fldBits_width : (Instr.fldBits 7 0 0 1).wellFormed = false ∧ (Instr.fldBits 8 0 5 4).wellFormed = false := by decide
theorem test_wf_fldPad_outside : (Instr.fldPad [1] 2).wellFormed = false := by decide
theorem test_wf_layout_unsorted :
    (Instr.decodeLayout "x" [⟨"a", 2, .u8 none, 0⟩, ⟨"b", 0, .u8 none, 0⟩] 0 0 []).wellFormed = false := by decide
/-- R195: a field of revision 1 before one of revision 0, and a revision that adds no field. -/
theorem test_wf_layout_revisions :
    (Instr.decodeLayout "x" [⟨"a", 0, .u8 none, 1⟩, ⟨"b", 1, .u8 none, 0⟩] 1 0 []).wellFormed = false ∧
    (Instr.decodeLayout "x" [⟨"a", 0, .u8 none, 0⟩, ⟨"b", 1, .u8 none, 2⟩] 2 0 []).wellFormed = false ∧
    (Instr.decodeLayout "x" [⟨"a", 0, .u16 none, 0⟩, ⟨"b", 1, .u8 none, 1⟩] 1 0 []).wellFormed = false ∧
    (Instr.decodeLayout "x" [⟨"a", 0, .u16 none, 0⟩, ⟨"b", 2, .u8 none, 1⟩] 1 0 []).wellFormed = true := by decide
theorem test_wf_layout_one_name_twice :
    (Instr.decodeLayout "x" [⟨"a", 0, .u8 none, 0⟩, ⟨"a", 1, .u8 none, 0⟩] 0 0 []).wellFormed = false := by decide

/-! ### Decoding: words written out from the encodings of R90, R98, R107, R108, R110 -/

theorem test_decode_feed : decode (.command [0b00000001, 0x24, 0x40]) = .ok (.feed [0x24, 0x40]) := by decide
theorem test_decode_drain : decode (.command [0b00000010]) = .ok .drain := by decide
theorem test_decode_setMode : decode (.command [0b00000011, 0b11111110]) = .ok (.setMode 0) := by decide
theorem test_decode_setLimit : decode (.command [0b00000100, 0x08, 0x01]) = .ok (.setLimit 0x0108) := by decide
/-- As many operand bytes as R106 gives the key, here one and two. -/
theorem test_decode_setFw : decodeSetFw 2 [0x02, 0x01] = .ok (.setFw 0x0102) ∧ decodeSetFw 1 [0x01] = .ok (.setFw 1) ∧
    decodeSetFw 2 [0x01] = .error .operandLength ∧ decodeSetFw 1 [0x02, 0x01] = .error .operandLength := by decide
theorem fwBytes_pos : 0 < fwBytes := by simp [fwBytes, fwWidth]
theorem test_decode_getters :
    decode (.command [0b00000110]) = .ok .getMode ∧ decode (.command [0b00000111]) = .ok .getLimit ∧
    decode (.command [0b00001000]) = .ok .getFw ∧ decode (.command [0b00001001]) = .ok .getBuf ∧
    decode (.command [0b00001010]) = .ok .getStatus := by decide
theorem test_decode_reset : decode (.command [0b00001111]) = .ok .reset ∧ decode .resetInput = .ok .reset := by decide
theorem test_decode_reserved :
    decode (.command [0b00000000]) = .ok .reserved0 ∧ decode (.command [0b00001011]) = .ok .reservedB ∧
    decode (.command [0b00001100]) = .ok .reservedC ∧ decode (.command [0b00001101]) = .ok .reservedD ∧
    decode (.command [0b00001110]) = .ok .reservedE ∧ decode (.command [0b00010010]) = .ok (.reservedHi 1 2) ∧
    decode (.command [0b11110001, 0x55]) = .ok (.reservedHi 15 1) := by decide
theorem test_decode_frame_A : decode (.stream frameA) =
    .ok (.frame 0xBA83 4001 0 32 345600000 2200 (frameA.drop 14)) := by decide
theorem test_decode_frame_bits : decode (.stream [0b00100100, 0b01000000, 0b00110100, 0b00010010, 0b11111110, 0b10100001,
      0b00010000, 0b10000000, 0x01, 0x02, 0x03, 0x04, 0x05, 0x06]) =
    .ok (.frame 0x1234 0x1FE 5 0x8010 0x04030201 0x0605 []) := by decide
theorem test_decode_stream_without_marker : decode (.stream [0x40, 0x24]) = .ok (.feed [0x40, 0x24]) := by decide
theorem test_decode_operand_count_refused :
    decode (.command []) = .error .emptyCommand ∧ decode (.command [0x02, 0x00]) = .error .operandLength ∧
    decode (.command [0x03]) = .error .operandLength ∧ decode (.command [0x04, 0x01]) = .error .operandLength := by decide
theorem test_decode_setFw_without_key : decode (.command [0x05]) = .error .operandLength :=
  if_neg (Nat.ne_of_lt fwBytes_pos)

/-- The pseudo-operations are presented as their expansions (R110). -/
theorem test_encode_pseudo :
    encode (.parse [0xAA]) = [.command [0x01, 0xAA], .command [0x02]] ∧ encode .setModeAcc = [.command [0x03, 0x01]] ∧
    encode .setModeRep = [.command [0x03, 0x00]] ∧ encode .flush = [.command [0x02]] ∧
    encode (.feedb 0x24) = [.command [0x01, 0x24]] := by decide

theorem test_decodeTableWord :
    decodeTableWord 8 0x01 = some (.feed []) ∧ decodeTableWord 8 0x03 = some (.setMode 0) ∧
    decodeTableWord 8 0x04 = some (.setLimit 0) ∧
    decodeTableWord 8 0x0F = some .reset ∧ decodeTableWord 8 0x0C = some .reservedC ∧
    decodeTableWord 8 0x97 = some (.reservedHi 9 7) ∧ decodeTableWord 24 0x080004 = some (.setLimit 0x0800) ∧
    decodeTableWord 16 0x4024 = some (.frame 0 0 0 0 0 0 []) := by decide

/-- SET_FW's word with its operand bytes, all zero: their number is `fwBytes`, which no evaluation can tell. -/
theorem test_word_setFw : decode (wordTransaction 8 0x05) = .ok (.setFw 0) := by
  have h : ∀ n, leNat (List.replicate n (0 : Byte)) = 0 := by
    intro n; induction n with
    | zero => rfl
    | succ n ih => rw [List.replicate_succ, leNat, ih]; rfl
  show decodeSetFw fwBytes (List.replicate fwBytes 0) = _
  rw [decodeSetFw, if_pos List.length_replicate, h]
theorem test_decodeTableWord_setFw : decodeTableWord 8 0x05 = some (.setFw 0) := by rw [decodeTableWord, test_word_setFw]
theorem test_withFetchWord_setFw : step (State.reset.withFetchWord 8 0x05) = .next ((State.reset.setFw 0).respond .ok) := by
  show (match fetched (wordTransaction 8 0x05) with | .ok i => exec i _ | .error r => .refused r) = _
  rw [fetched, test_word_setFw]
  rfl

/-- The word that the host places is fetched and run as the first operation after reset. -/
theorem test_withFetchWord : step (State.reset.withFetchWord 8 0x07) = .next (State.reset.respond (.limit 65535)) := rfl

/-! ### Host operations -/

theorem test_reset_getters :
    after (exec .getMode State.reset) State.resp = some (some (.mode 1)) ∧
    after (exec .getLimit State.reset) State.resp = some (some (.limit 65535)) ∧
    after (exec .getStatus State.reset) State.resp = some (some (.status .idle 0 0)) := by decide
theorem test_getBuf : after (exec .getBuf { s0 with buf := [0x24, 0x40] }) State.resp = some (some (.bytes [0x24, 0x40])) := by decide
theorem test_getFw : after (exec .getFw s0) State.resp = some (some (.key 0)) := by decide
/-- R263: `SET_LIMIT 0 => E_LIMIT`, `SET_LIMIT 8 => ok`. -/
theorem test_setLimit :
    after (exec (.setLimit 0) s0) (fun t => (t.limit, t.resp)) = some (65535, some (.error .eLimit)) ∧
    after (exec (.setLimit 8) s0) (fun t => (t.limit, t.resp)) = some (8, some .ok) := by decide
theorem test_setMode : after (exec (.setMode 0) s0) State.mode = some 0 ∧ after (exec .setModeAcc s0) State.mode = some 1 ∧
    after (exec .setModeRep s0) State.mode = some 0 := by decide
/-- R264: a key outside `FW_SET`; key 0 is always inside (R25). -/
theorem test_setFw : exec (.setFw (Config.fwOthers + 1)) s0 = .next { s0 with resp := some (.error .eFw) } ∧
    exec (.setFw 0) State.reset = .next { State.reset with fw := 0, resp := some .ok } := by
  constructor
  · rw [exec, execSetFw, writeFw_unknown (by simp [Config.block])]
  · rfl
theorem test_reset_op : after (exec .reset { s0 with buf := [1], limit := 3, mode := 0, phase := .missingBytes })
    (fun t => (t.buf, t.limit, t.mode, t.phase, t.resp)) = some ([], 65535, 1, .idle, some .ok) := by decide
theorem test_reserved_unknown : after (exec .reservedD s0) State.resp = some (some (.error .eCmd)) := by decide
theorem test_codes : ConfigError.eLimit.code = 1 ∧ ConfigError.eFw.code = 2 ∧ ConfigError.eCmd.code = 3 ∧
    ConfigError.eChunk.code = 4 ∧ Phase.drained.code = 3 ∧ Status.errorCrc.code = 3 := by decide

/-! ### Checksum, codecs, extractor -/

/-- V1.6, from general knowledge there. -/
theorem test_crc_check_value : crc16 [0x31, 0x32, 0x33, 0x34, 0x35, 0x36, 0x37, 0x38, 0x39] = 0x31C3 := by decide
/-- V1.3, V1.4, V1.5, V1.7. -/
theorem test_crc_single : crc16 [0x01] = 0x1021 ∧ crc16 [0x80] = 0x9188 ∧ crc16 [0xFF] = 0x1EF0 ∧ crc16 [0x24, 0x40] = 0x82E6 := by
  decide
/-- V2.5: byte 5 bit 5 is revision bit 0, byte 7 the high length byte. -/
theorem test_hdr : (readHeader [0x24, 0x40, 0x00, 0x00, 0x00, 0x20, 0x00, 0x01]).map
    (fun h => (h.blockNumber, h.blockRevision, h.length)) = some (0, 1, 256) := by decide
/-- V2.6: the codec does not test the marker. -/
theorem test_hdr_no_marker : (readHeader [0x00, 0x00, 0x83, 0xBA, 0xA1, 0x0F, 0x20, 0x00]).map
    (fun h => (h.sync, h.crc, h.blockNumber, h.length)) = some ((0, 0), 0xBA83, 4001, 32) := by decide
/-- V3.1: the week number is the first argument of the conversion. -/
theorem test_time_known : timeDecode p0.timeConv frameA =
    some { tow := some 345600000, wnc := some 2200, timestamp := some ⟨2200⟩, date := some ⟨345600000⟩ } := by decide
/-- V3.2. -/
theorem test_time_sentinel : timeDecode p0.timeConv [0, 0, 0, 0, 0, 0, 0, 0, 0xFF, 0xFF, 0xFF, 0xFF, 0x98, 0x08] =
    some { tow := none, wnc := some 2200, timestamp := none, date := none } := by decide
theorem test_sent : after (exec (.sentN 16 0xFFFF 0xFFFF) s0) State.out = some (some (.sent 16 none)) := by decide
/-- V4.1, V4.3, V4.5, V4.9. -/
theorem test_extract_verdicts :
    (extract p0 frameA).map (fun x => x.1.status) = some .ok ∧
    (extract p0 (frameA.take 31)).map (fun x => x.1.status) = some .missingBytes ∧
    (extract p0 (frameA.set 20 0x06)).map (fun x => (x.1.status, x.2.crcacc)) = some (.errorCrc, some 0xB9F6) ∧
    (extract p0 shortLength).map (fun x => x.1.status) = some .errorLength := by decide
/-- V4.11: the bytes present are tested before the form of the length. -/
theorem test_extract_order : (extract p0 ([0x24, 0x40, 0, 0, 1, 0, 0xFF, 0x0F] ++ [0, 0, 0, 0, 0, 0])).map
    (fun x => x.1.status) = some .missingBytes := by decide

/-! ### Registry and fields -/

/-- V5.2, V5.3: the key is the number alone. -/
theorem test_reg : regDecode (fun n => if n = 4001 then some fun r b => ⟨"x", some (.external (leNat (BitVec.ofNat 8 r.toNat :: b)))⟩ else none)
    4001 7 [1] = ⟨"x", some (.external 0x107)⟩ ∧ regDecode p0.decoders 4001 0 [1] = ⟨"unknown", none⟩ := by decide
/-- V5.4 to V5.7. -/
theorem test_fld_unsigned :
    fldU8 [0xAA, 0x55] 0 defaultU8 = some (.u8 (some 170)) ∧ fldU8 [0xFF, 0x55] 0 defaultU8 = some (.u8 none) ∧
    fldU8 [0xFF] 0 none = some (.u8 (some 255)) ∧ fldU16 [0x98, 0x08] 0 defaultU16 = some (.u16 (some 2200)) ∧
    fldU16 [0x00, 0xFF] 0 defaultU16 = some (.u16 (some 65280)) ∧
    fldU32 [0x00, 0x70, 0x99, 0x14] 0 defaultU32 = some (.u32 (some 345600000)) ∧
    fldU32 [0xFF, 0xFF, 0xFF, 0xFF] 0 defaultU32 = some (.u32 none) := by decide
/-- V5.8, V5.9. -/
theorem test_fld_signed :
    fldI16 [0x00, 0x80] 0 defaultI16 = some (.i16 none) ∧ fldI16 [0x01, 0x80] 0 defaultI16 = some (.i16 (some (-32767))) ∧
    fldI8 [0xFF] 0 defaultI8 = some (.i8 (some (-1))) ∧ fldI32 [0xFF, 0xFF, 0xFF, 0xFF] 0 defaultI32 = some (.i32 (some (-1))) := by
  decide
/-- V6.1, V6.2, V6.4. -/
theorem test_fld_float :
    fldF32 [0xF9, 0x02, 0x95, 0xD0] 0 defaultF32 = some (.f32 none) ∧
    fldF32 [0xFA, 0x02, 0x95, 0xD0] 0 defaultF32 = some (.f32 (some 0xD09502FA)) ∧
    fldF64 [0x00, 0x00, 0x00, 0x20, 0x5F, 0xA0, 0x12, 0xC2] 0 defaultF64 = some (.f64 none) := by decide
/-- V5.10. -/
theorem test_bits : fldBits (0x571A : U16) 13 3 = some 2 ∧ fldBits (0x571A : U16) 0 13 = some 5914 := by decide
/-- V6.6, V6.7: wider than 64 bits. -/
theorem test_pad : fldPad [0xAA, 0x55] 2 = some none ∧
    fldPad [1, 2, 3, 4, 5, 6, 7, 8, 9, 10] 0 = some (some 0x0A090807060504030201) := by decide

/-- The layout X of V6.8. -/
def layoutX : List FieldSpec :=
  [⟨"a", 0, .u8 defaultU8, 0⟩, ⟨"b", 1, .u8 defaultU8, 0⟩, ⟨"c", 2, .u32 defaultU32, 1⟩]

/-- V6.8: revision 0 does not know c; revision 3 is decoded as revision 1. -/
theorem test_layout :
    decodeLayout "X" layoutX 1 0 [0x07, 0xFF, 1, 0, 0, 0] =
      ⟨"X", some (.layout ⟨[("a", .u8 (some 7)), ("b", .u8 none)], some 1⟩)⟩ ∧
    decodeLayout "X" layoutX 1 3 [0x07, 0xFF, 1, 0, 0, 0, 0xAA, 0x55, 0, 0] =
      ⟨"X", some (.layout ⟨[("a", .u8 (some 7)), ("b", .u8 none), ("c", .u32 (some 1))], some 21930⟩)⟩ := by decide
theorem test_layout_short : decodeLayout "X" layoutX 1 1 [0x07, 0xFF] = ⟨"X", none⟩ := by decide

/-! ### Searches and FEED -/

/-- V7.1, V7.3. -/
theorem test_find :
    after (exec (.find 3) { s0 with buf := [0xDE, 0xAD, 0x24, 0x40, 0x11] }) State.out = some (some (.index none)) ∧
    after (exec (.find 0) { s0 with buf := [0xDE, 0xAD, 0x24, 0x40, 0x11] }) State.out = some (some (.index (some 2))) ∧
    findMark [0x24] 0 = none := by decide
/-- V7.2. -/
theorem test_lastmark : after (exec .lastmark { s0 with buf := [0x24, 0x40, 0x01, 0x24, 0x40, 0x02, 0x03] }) State.out =
    some (some (.index (some 3))) := by decide
/-- V8.1 and, for a stray marker byte and a corrupted frame before it, V8.12 and V8.11. -/
theorem test_feed_A : after (feedWith p0 frameA s0) (fun t => (t.buf, t.q.map (fun f => f.header.blockNumber), t.phase)) =
    some ([], [4001], .drained) := by decide
theorem test_feed_resync : after (feedWith p0 (frameA.set 20 0x06 ++ 0x24 :: frameB) s0)
    (fun t => (t.buf, t.q.map (fun f => (f.header.blockNumber, f.raw == frameB)))) = some ([], [(5914, true)]) := by decide
/-- V8.10: step 3b retains from the last marker. -/
theorem test_feed_last_marker : after (feedWith p0 [0x24, 0x40, 0x01, 0x24, 0x40, 0x02, 0x03] s0) (fun t => (t.buf, t.phase)) =
    some ([0x24, 0x40, 0x02, 0x03], .missingBytes) := by decide
/-- V8.28: the cap cuts the oldest bytes. -/
theorem test_feed_cap : after (feedWith p0 (frameA.take 20) { s0 with limit := 8 }) (fun t => (t.buf, t.phase)) =
    some ([0x98, 0x08, 0x01, 0x02, 0x03, 0x04, 0x05, 0x06], .missingBytes) := by decide
/-- A finite bound on the chunk, and on the queue (R220, R302). -/
theorem test_feed_bounds :
    feedWith { p0 with chunkMax := some 1 } [0x24, 0x40] s0 = .next { s0 with resp := some (.error .eChunk) } ∧
    stopOf (feedWith { p0 with queueCap := some 0 } frameB s0) = some .queueOverflow := ⟨rfl, by decide⟩
theorem test_parse_empty : exec (.parse []) s0 = .next { s0 with phase := .drained, resp := some (.frames []) } := rfl
theorem test_frame_is_a_feed : after (exec (.frame 0 0 0 8 0 0 []) s0) (fun t => (t.buf, t.phase)) = some ([], .drained) := by
  decide
theorem test_feedb : after (exec (.feedb 0x24) s0) (fun t => (t.buf, t.phase)) = some ([], .drained) := by decide
theorem test_flush : after (exec .flush s0) State.resp = some (some (.frames [])) := by decide

/-! ### A state and operands for every statement with hypotheses, at the bounds of its clauses -/

/-- The state after the first two bytes of a frame, and one whose cap cut the marker away. -/
def sRetained : State := { s0 with buf := [0x24, 0x40], phase := .missingBytes, resp := some .ok }
def sCut : State := { s0 with limit := 1, buf := [0x40], phase := .missingBytes, resp := some .ok }

theorem witness_SetLimitWritesLimit : (1 : U16).toNat ≠ 0 ∧ (65535 : U16).toNat ≠ 0 ∧ (0 : U16).toNat = 0 ∧
    (8 : U16).toNat ≤ ({ Config.block with limitMax := 8 } : BlockParams).limitMax ∧
    ({ Config.block with limitMax := 8 } : BlockParams).limitMax < (9 : U16).toNat := by decide
theorem witness_SetFwWritesFw : 0 ≤ Config.fwOthers ∧ Config.fwOthers ≤ Config.fwOthers ∧ Config.fwOthers < Config.fwOthers + 1 ∧
    (List.replicate fwBytes (0 : Byte)).length = fwBytes ∧ ([] : List Byte).length ≠ fwBytes := by
  have := fwBytes_pos; simp; omega
theorem witness_ReservedWordStepsToECmd :
    ({ s0 with port := [.command (0x00 :: [0x55]), .resetInput] } : State).port = .command ((0x00 : Byte) :: [0x55]) :: [.resetInput] ∧
    (∀ w ∈ [(0x00 : Byte), 0x0B, 0x0E, 0x10, 0xFF],
      w.toNat = 0x0 ∨ (0xB ≤ w.toNat ∧ w.toNat ≤ 0xE) ∨ 0x10 ≤ w.toNat) := by decide
theorem witness_HostOperationsAnswerOnce : Instr.drain.format ≠ .internal ∧ (Instr.frame 0 0 0 0 0 0 []).format ≠ .internal ∧
    Instr.flush.format ≠ .internal ∧ Instr.reservedB.format ≠ .internal := by decide
theorem witness_OnlySettersWriteConfiguration : exec .getMode s0 = .next { s0 with resp := some (.mode 1) } ∧ Instr.getMode ≠ .reset ∧
    (∀ m, Instr.getMode ≠ .setMode m) ∧ Instr.getMode ≠ .setModeAcc ∧ Instr.getMode ≠ .setModeRep ∧
    (∀ n, Instr.getMode ≠ .setLimit n) ∧ (∀ k, Instr.getMode ≠ .setFw k) := ⟨rfl, by simp⟩
theorem witness_OnlyFeedAndResetWriteStorage : exec .getBuf s0 = .next { s0 with resp := some (.bytes []) } ∧ Instr.getBuf ≠ .reset ∧
    fedChunk .getBuf = none ∧ Instr.getBuf ≠ .drain ∧ Instr.getBuf ≠ .flush := by
  exact ⟨rfl, by decide⟩
theorem witness_InternalOperationsWriteNoState : (Instr.find 0).format = .internal ∧
    exec (.find 0) s0 = .next { s0 with out := some (.index none) } ∧
    ∀ b, Instr.find 0 ≠ .crc16 b ∧ Instr.find 0 ≠ .hdrDecode b ∧ Instr.find 0 ≠ .timeDecode b ∧ Instr.find 0 ≠ .extract b :=
  ⟨rfl, rfl, by simp⟩
theorem witness_ControlRegistersReadTheState : (∀ e, Response.ok ≠ .error e) ∧
    Instr.parse [] ∈ [Instr.drain, .flush, .parse [], .reset] ∧
    exec (.parse []) s0 = .next { s0 with phase := .drained, resp := some (.frames []) } := ⟨by simp, by simp, rfl⟩
theorem witness_Crc16Properties : (0x10 : Byte) = (crc16 [0x01]).extractLsb' 8 8 ∧ (0x21 : Byte) = (crc16 [0x01]).extractLsb' 0 8 := by
  decide
theorem witness_TimeDecodeConvertsTheSentinels : 14 ≤ (frameB.take 14).length ∧ 14 ≤ frameA.length := by decide
theorem witness_ExtractTestsInOrder : ∀ b ∈ [frameA, frameA.take 31, frameA.set 20 0x06, shortLength, frameB.take 8],
    (readHeader b).isSome = true := by decide
/-- One witness for each verdict. -/
theorem witness_ExtractRegistersByVerdict :
    (∃ t x, exec (.extract (frameB.take 15)) s0 = .next t ∧ t.out = some (.extracted x) ∧ x.status = .missingBytes) ∧
    (∃ t x, exec (.extract shortLength) s0 = .next t ∧ t.out = some (.extracted x) ∧ x.status = .errorLength) ∧
    (∃ t x, exec (.extract wrongCrc) s0 = .next t ∧ t.out = some (.extracted x) ∧ x.status = .errorCrc) ∧
    (∃ t x, exec (.extract frameB) s0 = .next t ∧ t.out = some (.extracted x) ∧ x.status = .ok) :=
  ⟨⟨_, _, rfl, rfl, rfl⟩, ⟨_, _, rfl, rfl, rfl⟩, ⟨_, _, rfl, rfl, rfl⟩, ⟨_, _, rfl, rfl, rfl⟩⟩
theorem witness_ExtractAcceptsWellFormedFrames : (readHeader frameB).isSome = true ∧ markerAt frameB 0 = true := by decide
theorem witness_ExtractIgnoresTrailingBytes : (readHeader (frameB ++ [0x99])).map (fun h => (decide (8 ≤ h.length.toNat),
    decide (h.length.toNat ≤ (frameB ++ [0x99]).length))) = some (true, true) := by decide
theorem witness_RegDecodeDispatches : (fun _ => none : BlockNumber → Option Decoder) 0 = none ∧
    ∃ d, (fun _ => some fun _ _ => default : BlockNumber → Option Decoder) 0 = some d := ⟨rfl, _, rfl⟩
theorem witness_UnsignedFieldsRead : 7 + 1 ≤ (frameB.take 8).length ∧ 6 + 2 ≤ (frameB.take 8).length ∧
    4 + 4 ≤ (frameB.take 8).length ∧ 0 + 8 ≤ (frameB.take 8).length := by decide
theorem witness_SignedFieldsRead : 1 + 1 ≤ [(0x00 : Byte), 0x80].length ∧ 0 + 2 ≤ [(0x00 : Byte), 0x80].length ∧
    0 + 4 ≤ [(0x00 : Byte), 0x00, 0x00, 0x80].length := by decide
theorem witness_BitFieldExtracts : 13 + 3 ≤ 16 ∧ 0 + 0 ≤ 8 := by decide
theorem witness_PaddingIsOneInteger : 2 ≤ [(0xAA : Byte), 0x55].length ∧ 2 = [(0xAA : Byte), 0x55].length ∧ 1 < [(0xAA : Byte), 0x55].length := by
  decide
theorem witness_InternalOperationsStopOutsideTheirContract : (frameB.take 7).length < 8 ∧ (frameB.take 13).length < 14 ∧
    ([] : List Byte).length < 0 + 1 ∧ [(0x01 : Byte)].length < 0 + 2 ∧ (frameB.take 3).length < 0 + 4 ∧ (frameB.take 7).length < 0 + 8 ∧
    ([] : List Byte).length < 1 ∧ 8 < 5 + 4 := by decide
theorem witness_LayoutDecodesTheRevisionsFields :
    fieldsEnd (presentFields layoutX (minRev 1 1)) = 6 ∧ [(0x07 : Byte), 0xFF].length < 6 ∧ 6 ≤ [(0x07 : Byte), 0xFF, 1, 0, 0, 0].length := by
  decide
theorem witness_LaterRevisionsKeepFields : (Instr.decodeLayout "X" layoutX 1 1 [0x07, 0xFF, 1, 0, 0, 0]).wellFormed = true ∧
    (0 : BlockRevision) < 1 ∧ (1 : BlockRevision) ≤ 3 ∧ (0 : BlockRevision) ≤ 1 ∧
    (∃ v, (decodeLayout "X" layoutX 1 0 [0x07, 0xFF, 1, 0, 0, 0]).body = some (.layout v)) ∧
    (∃ v, (decodeLayout "X" layoutX 1 1 [0x07, 0xFF, 1, 0, 0, 0]).body = some (.layout v)) ∧
    ∃ f ∈ layoutX, (0 : BlockRevision) < f.since :=
  ⟨by decide, by decide, by decide, by decide, ⟨_, rfl⟩, ⟨_, rfl⟩, by decide⟩
theorem witness_FindIsTheLeastMarker : sRetained.buf.length < 1 + 2 := by decide
theorem witness_FeedFollowsItsSteps : ({ p0 with chunkMax := some 2 } : Params).queueCap = none ∧
    (∀ m, ({ p0 with chunkMax := some 2 } : Params).chunkMax = some m → [(0x24 : Byte), 0x40].length ≤ m) ∧
    (∃ m, ({ p0 with chunkMax := some 2 } : Params).chunkMax = some m ∧ m < [(0x24 : Byte), 0x40, 0x00].length) := by
  refine ⟨rfl, ?_, 2, rfl, by decide⟩
  intro m h; cases h; decide
theorem witness_FeedsAlwaysComplete : fedChunk (.feedb 0x24) = some [0x24] ∧ Instr.feedb 0x24 ≠ .parse [0x24] ∧
    fedChunk (.parse []) = some [] ∧ Instr.reset.format ≠ .internal := by decide
theorem witness_FeedBoundsTheBuffer : fedChunk (.feed [0x24, 0x40]) = some [0x24, 0x40] ∧
    exec (.feed [0x24, 0x40]) s0 = .next sRetained := ⟨rfl, rfl⟩
/-- One FEED that yields a frame. -/
theorem witness_FeedDeliversFramesInOrder : ∃ t, exec (.feed frameB) s0 = .next t ∧ t.q.map Frame.raw = [frameB] := ⟨_, rfl, rfl⟩
/-- One FEED that keeps its bytes, one that cuts them, one that keeps none. -/
theorem witness_FeedRetainsFromTheLastMarker : exec (.feed [0x24, 0x40]) s0 = .next sRetained ∧
    exec (.feed [0x24, 0x40]) { s0 with limit := 1 } = .next sCut ∧
    exec (.feed []) s0 = .next { s0 with phase := .drained, resp := some .ok } := ⟨rfl, rfl, rfl⟩
theorem witness_ReplaceModeForgets : ({ sRetained with mode := 0 } : State).mode = 0 := rfl
/-- Also for ResynchronisationBehindAFrame: an empty buffer, and replace mode with bytes retained. -/
theorem witness_WholeFrameRoundTrip : wellFormedFrame frameB = true ∧ s0.buf = [] ∧ ({ sRetained with mode := 0 } : State).mode = 0 := by
  decide
theorem witness_BuiltFrameIsDelivered : [(0xAA : Byte), 0x55].length % 4 = 2 ∧ (16 : U16).toNat = 14 + [(0xAA : Byte), 0x55].length ∧
    s0.buf = [] := by decide
/-- No marker inside frame B. -/
theorem frameB_noInnerMarker (k : Nat) : NoInnerMarker frameB k := by
  intro i hi
  have h := markerAt_take hi
  have hlt : i < 16 := by have := markerAt_lt h; simp only [frameB, List.length_cons, List.length_nil] at this; omega
  exact (by decide : ∀ i < 16, markerAt frameB i = true → i = 0) i hlt h
theorem witness_PartialFrameIsRetained : wellFormedFrame frameB = true ∧ s0.mode = 1 ∧ s0.buf = [] ∧
    (2 ≤ 2 ∧ 2 < frameB.length ∧ 15 < frameB.length ∧ 15 ≤ ({ s0 with limit := 15 } : State).limit.toNat) ∧ NoInnerMarker frameB 15 :=
  ⟨by decide, rfl, rfl, by decide, frameB_noInnerMarker 15⟩
/-- Frame B is too short for another frame inside it. -/
theorem frameB_nestsNoFrame : NestsNoFrame frameB := by
  intro a n ha hn
  by_contra hc
  obtain ⟨_, _, h16, _⟩ := wellFormedFrame_iff.mp (by simpa using hc)
  rw [List.length_take, List.length_drop] at h16
  have : frameB.length = 16 := rfl
  omega
theorem witness_SplitFrameIsReassembled : wellFormedFrame frameB = true ∧ s0.mode = 1 ∧ s0.buf = [] ∧ 16 ≤ frameB.length ∧
    2 < frameB.length ∧ 2 ≤ s0.limit.toNat ∧ NoInnerMarker frameB 2 ∧ NestsNoFrame frameB :=
  ⟨by decide, rfl, rfl, by decide, by decide, by decide, frameB_noInnerMarker 2, frameB_nestsNoFrame⟩
theorem witness_ReplaceModeNeverReassembles : wellFormedFrame frameB = true ∧ ({ s0 with mode := 0 } : State).mode = 0 ∧
    NestsNoFrame frameB ∧ exec (.feed (frameB.take 2)) { s0 with mode := 0 } = .next { sRetained with mode := 0 } ∧
    ∃ u, exec (.feed (frameB.drop 2)) { sRetained with mode := 0 } = .next u :=
  ⟨by decide, rfl, frameB_nestsNoFrame, rfl, _, rfl⟩
theorem witness_EmptyChunkRescans : exec (.feed [0x24, 0x40]) s0 = .next sRetained ∧ sRetained.mode = 1 ∧
    sRetained.phase = .missingBytes ∧ markerAt sRetained.buf 0 = true ∧
    exec (.feed [0x24, 0x40]) { s0 with limit := 1 } = .next sCut ∧ sCut.mode = 1 ∧ sCut.phase = .missingBytes ∧
    markerAt sCut.buf 0 = false ∧ ({ s0 with mode := 0 } : State).mode = 0 := ⟨rfl, rfl, rfl, rfl, rfl, rfl, rfl, rfl, rfl⟩
theorem witness_FiniteQueueFaults : feedWith { p0 with queueCap := none } [0x24, 0x40] s0 = .next sRetained := rfl
theorem witness_EncodingRoundTrip : (Instr.reservedHi 15 15).wellFormed = true ∧ (Instr.reservedHi 15 15).format ≠ .internal ∧
    (Instr.frame 0xC5DA 5914 2 16 0xFFFFFFFF 0xFFFF [0xAA, 0x55]).wellFormed = true ∧ (Instr.setLimit 0).wellFormed = true := by decide
theorem witness_StepRunsTheDecodedOperation : ({ s0 with port := [.command [0x02]] } : State).port = [.command [0x02]] ∧
    decode (.command [0x02]) = .ok .drain ∧ decode (.command []) = .error .emptyCommand ∧ s0.port = [] := by decide
/-- A state other than that after reset, with a marker retained, that meets the invariant and steps. -/
theorem witness_StepKeepsTheInvariant : ({ sRetained with port := [.command [0x02]] } : State).Inv ∧
    step { sRetained with port := [.command [0x02]] } = .next { sRetained with resp := some (.frames []) } := by
  refine ⟨⟨by decide, rfl, by decide, rfl, rfl, fun i hi => ?_, fun h => absurd rfl h, by decide, fun f hf => by cases hf⟩, rfl⟩
  have := markerAt_lt hi
  simp only [sRetained, List.length_cons, List.length_nil] at this
  omega

end Sys2Proof.Tests
end

section
/-! SUPPORT. The reserved command words from the port to the answer (R108, R271, R296), and the pseudo-operations as
their expansions (R110). -/

namespace Sys2Proof.Machine

/-! ### Reserved command words -/

/-- The high nibble is zero only in the words below 0x10. -/
theorem highNibble_ne_zero {w : Byte} (hw : 0x10 ≤ w.toNat) : w.extractLsb' 4 4 ≠ 0 := by
  intro h0
  have hnibble : w.toNat / 16 % 16 = 0 := by
    simpa [BitVec.extractLsb'_toNat, Nat.shiftRight_eq_div_pow] using congrArg BitVec.toNat h0
  have hlt : w.toNat < 256 := w.isLt
  omega

/-- A reserved word asks for a reserved operation, whatever operand bytes come with it: the decoder reads none of them
(R108, R296). -/
theorem decodeWord_reserved {w : Byte} (hw : w.toNat = 0x0 ∨ (0xB ≤ w.toNat ∧ w.toNat ≤ 0xE) ∨ 0x10 ≤ w.toNat)
    (ops : List Byte) : ∃ i, decodeWord w ops = .ok i ∧ i.format = .reserved := by
  rcases hw with hzero | ⟨hB, hE⟩ | hhigh
  · obtain rfl : w = 0x00 := BitVec.eq_of_toNat_eq hzero
    exact ⟨.reserved0, rfl, rfl⟩
  · have hword : w = 0x0B ∨ w = 0x0C ∨ w = 0x0D ∨ w = 0x0E := by bv_omega
    rcases hword with rfl | rfl | rfl | rfl
    · exact ⟨.reservedB, rfl, rfl⟩
    · exact ⟨.reservedC, rfl, rfl⟩
    · exact ⟨.reservedD, rfl, rfl⟩
    · exact ⟨.reservedE, rfl, rfl⟩
  · exact ⟨.reservedHi _ _, if_pos (highNibble_ne_zero hhigh), rfl⟩

/-- Every reserved operation raises `E_CMD` and does nothing else (R271). -/
theorem exec_reserved {i : Instr} (hi : i.format = .reserved) (s : State) : exec i s = .next (s.raise .eCmd) := by
  cases i with
  | reserved0 => rfl
  | reservedB => rfl
  | reservedC => rfl
  | reservedD => rfl
  | reservedE => rfl
  | reservedHi h o => rfl
  | _ => cases hi

/-- A step takes the command at the front of the port and runs what its word decodes to on the state without it. -/
theorem step_command {w : Byte} {ops : List Byte} {rest : List Transaction} {s : State} {i : Instr}
    (hport : s.port = .command (w :: ops) :: rest) (hi : decodeWord w ops = .ok i) :
    step s = exec i (s.setPort rest) := by
  simp only [step, hport, fetched, decode, decodeCommand, hi]

/-- Settles O8: the word decodes to a reserved operation, and each of these raises `E_CMD`. -/
theorem reservedWordStepsToECmd : Obligations.ReservedWordStepsToECmd := by
  intro w ops rest s hport hw
  obtain ⟨i, hdecode, hreserved⟩ := decodeWord_reserved hw ops
  calc step s = exec i (s.setPort rest) := step_command hport hdecode
    _ = .next ((s.setPort rest).raise .eCmd) := exec_reserved hreserved _
    _ = .next { s with port := rest, resp := some (.error .eCmd) } := rfl

/-! ### Pseudo-operations -/

/-- DRAIN answers the queue and empties it (R261). -/
theorem drain_eq (s : State) : drain s = { s with q := [], resp := some (.frames s.q) } := rfl

/-- SET_MODE writes `MODE` and answers `ok` (R262). -/
theorem writeMode_eq (m : BitVec 1) (s : State) : writeMode m s = { s with mode := m, resp := some .ok } := rfl

/-- PARSE answers with the DRAIN of the state that its FEED leaves (R110). -/
theorem execParse_of_feed {c : List Byte} {s t : State} (h : feed c s = .next t) : execParse c s = .next (drain t) := by
  simp only [execParse, h]

/-- PARSE is FEED and then DRAIN: both complete, as every FEED of this machine does (R110, R299). -/
theorem exec_parse_expansion (c : List Byte) (s : State) :
    ∃ t u, exec (.feed c) s = .next t ∧ exec .drain t = .next u ∧ exec (.parse c) s = .next u := by
  obtain ⟨kept, ph, newq, -, hfeed⟩ := feed_run c s
  exact ⟨feedResult s kept ph newq, drain _, hfeed, rfl, execParse_of_feed hfeed⟩

/-- Settles O13: PARSE by `exec_parse_expansion`; the other four run the very function their expansion runs. -/
theorem pseudoOperationsAreTheirExpansions : Obligations.PseudoOperationsAreTheirExpansions := by
  intro s
  have hmode (m : BitVec 1) : exec (.setMode m) s = .next { s with mode := m, resp := some .ok } :=
    congrArg Host.Outcome.next (writeMode_eq m s)
  have hdrain : exec .drain s = .next { s with q := [], resp := some (.frames s.q) } :=
    congrArg Host.Outcome.next (drain_eq s)
  have hacc : exec .setModeAcc s = exec (.setMode 1) s := rfl
  have hrep : exec .setModeRep s = exec (.setMode 0) s := rfl
  have hflush : exec .flush s = exec .drain s := rfl
  exact ⟨fun c => exec_parse_expansion c s, hacc, hacc.trans (hmode 1), hrep, hrep.trans (hmode 0),
    hflush, hflush.trans hdrain, fun _ => rfl⟩

end Sys2Proof.Machine
end

section
/-! SUPPORT. The checksum as the remainder of a polynomial division over GF(2) (R131), and the three properties that follow
from its linearity (R132). -/

namespace Sys2Proof.Machine

open Polynomial (X)

/-! ### Properties of the register -/

/-- A register exclusive-ored with its own high byte is its low byte, which then moves up to bits 15:8. -/
theorem crcByte_own_high (r : U16) :
    crcByte r (r.extractLsb' 8 8) = (r.extractLsb' 0 8).setWidth 16 <<< 8 := by
  have hlow : r ^^^ ((r.extractLsb' 8 8).setWidth 16 <<< 8) = (r.extractLsb' 0 8).setWidth 16 := by
    ext i hi
    by_cases h8 : i < 8
    · simp [h8, BitVec.getLsbD_eq_getElem hi]
    · simp [h8, show 8 + (i - 8) = i by omega, show i - 8 < 8 by omega, hi]
  rw [crcByte, hlow, crcShift_low]

/-- The byte that stands in bits 15:8 of an otherwise empty register clears it. -/
theorem crcByte_cancel (x : Byte) : crcByte (x.setWidth 16 <<< 8) x = 0 := by
  rw [crcByte, BitVec.xor_self]; rfl

/-- Settles O17: the checksum's high byte leaves its low byte at bits 15:8, and the low byte clears that. -/
theorem crc16Properties : Obligations.Crc16Properties := by
  refine ⟨rfl, fun s => ?leadingZero, ?ownChecksum⟩
  case leadingZero =>
    have hzero : crcByte Config.crcInit 0x00 = Config.crcInit := rfl
    rw [crc16, List.foldl_cons, hzero, crc16]
  case ownChecksum =>
    rintro s hi lo rfl rfl
    rw [crc16_append, List.foldl_cons, List.foldl_cons, List.foldl_nil, crcByte_own_high, crcByte_cancel]

/-! ### The loop -/

theorem crcShift_eq_iterate (n : Nat) (r : U16) : crcShift n r = crcBit^[n] r := by
  induction n generalizing r with
  | zero => rfl
  | succ n ih => exact ih (crcBit r)

/-- The shifts of one byte as a loop whose counter is not used. -/
theorem crcShift_eq_foldl_range (n : Nat) (r : U16) :
    crcShift n r = (List.range n).foldl (fun r _ => crcBit r) r := by
  rw [List.foldl_const, List.length_range, crcShift_eq_iterate]

/-! ### Words as polynomials over GF(2) -/

/-- The polynomial over GF(2) whose coefficient of `X ^ i` is bit `i`. -/
noncomputable def bitsPoly {w : Nat} (v : BitVec w) : Polynomial (ZMod 2) :=
  ∑ i ∈ Finset.range w, if v.getLsbD i = true then X ^ i else 0

/-- The polynomial of a byte sequence: the first byte's bit 7 is the highest coefficient. -/
noncomputable def bytesPoly (s : List Byte) : Polynomial (ZMod 2) :=
  s.foldl (fun a b => a * X ^ 8 + bitsPoly b) 0

/-- The divisor of R131. -/
noncomputable def crcDivisor : Polynomial (ZMod 2) := X ^ 16 + X ^ 12 + X ^ 5 + 1

theorem bytesPoly_snoc (s : List Byte) (x : Byte) : bytesPoly (s ++ [x]) = bytesPoly s * X ^ 8 + bitsPoly x := by
  simp only [bytesPoly, List.foldl_append, List.foldl_cons, List.foldl_nil]

/-- Exclusive-or is addition over GF(2). -/
theorem bitsPoly_xor {w : Nat} (a b : BitVec w) : bitsPoly (a ^^^ b) = bitsPoly a + bitsPoly b := by
  rw [bitsPoly, bitsPoly, bitsPoly, ← Finset.sum_add_distrib]
  refine Finset.sum_congr rfl fun i _ => ?_
  rw [BitVec.getLsbD_xor]
  cases a.getLsbD i <;> cases b.getLsbD i <;> simp [CharTwo.add_self_eq_zero]

/-- Zero extension keeps the polynomial. -/
theorem bitsPoly_setWidth {w n : Nat} (h : w ≤ n) (v : BitVec w) : bitsPoly (v.setWidth n) = bitsPoly v := by
  have hterm : ∀ i ∈ Finset.range n, (if (v.setWidth n).getLsbD i = true then X ^ i else 0 : Polynomial (ZMod 2))
      = if v.getLsbD i = true then X ^ i else 0 := fun i hi => by simp [Finset.mem_range.mp hi]
  rw [bitsPoly, Finset.sum_congr rfl hterm]
  refine (Finset.sum_subset (Finset.range_subset_range.mpr h) fun i _ hout => ?_).symm
  simp [BitVec.getLsbD_of_ge v i (by simpa using hout)]

/-- A shift left multiplies by `X`, and the highest term is the bit shifted out. -/
theorem X_mul_bitsPoly {w : Nat} (v : BitVec (w + 1)) :
    X * bitsPoly v = bitsPoly (v <<< 1) + if v.getLsbD w = true then X ^ (w + 1) else 0 := by
  have hbit (i : Nat) : X * (if v.getLsbD i = true then X ^ i else 0 : Polynomial (ZMod 2))
      = if v.getLsbD i = true then X ^ (i + 1) else 0 := by rw [mul_ite, mul_zero, pow_succ']
  have hshift : bitsPoly (v <<< 1) = ∑ i ∈ Finset.range w, if v.getLsbD i = true then X ^ (i + 1) else 0 := by
    rw [bitsPoly, Finset.sum_range_succ']
    simp only [BitVec.getLsbD_shiftLeft]
    refine (add_eq_left.mpr (by simp)).trans (Finset.sum_congr rfl fun i hi => ?_)
    simp [Finset.mem_range.mp hi]
  rw [hshift, bitsPoly, Finset.mul_sum, Finset.sum_range_succ]
  simp only [hbit]

/-- The polynomial word is the divisor without its term `X ^ 16`, which is the bit shifted out. -/
theorem bitsPoly_crcPoly : bitsPoly Config.crcPoly + X ^ 16 = crcDivisor := by
  simp [bitsPoly, crcDivisor, Config.crcPoly, Finset.sum_range_succ]
  ring

/-! ### The register modulo the divisor -/

/-- One shift multiplies by `X` modulo the divisor. -/
theorem mk_crcBit (r : U16) :
    AdjoinRoot.mk crcDivisor (bitsPoly (crcBit r)) = AdjoinRoot.mk crcDivisor (X * bitsPoly r) := by
  rw [X_mul_bitsPoly (w := 15), crcBit]
  split
  · rw [bitsPoly_xor, AdjoinRoot.mk_eq_mk]
    refine ⟨1, ?_⟩
    rw [mul_one, ← bitsPoly_crcPoly, add_sub_add_left_eq_sub, CharTwo.sub_eq_add]
  · rw [add_zero]

theorem mk_crcShift (n : Nat) (r : U16) :
    AdjoinRoot.mk crcDivisor (bitsPoly (crcShift n r)) = AdjoinRoot.mk crcDivisor (X ^ n * bitsPoly r) := by
  induction n generalizing r with
  | zero => rw [crcShift, pow_zero, one_mul]
  | succ n ih => rw [crcShift, ih, map_mul, mk_crcBit, ← map_mul, pow_succ, mul_assoc]

/-- A byte at bits 15:8 is its polynomial times `X ^ 8`: a shift by 8 that brings no polynomial in. -/
theorem mk_highByte (x : Byte) :
    AdjoinRoot.mk crcDivisor (bitsPoly (x.setWidth 16 <<< 8)) = AdjoinRoot.mk crcDivisor (X ^ 8 * bitsPoly x) := by
  rw [← crcShift_low, mk_crcShift, bitsPoly_setWidth (by decide)]

theorem mk_crcByte (r : U16) (x : Byte) : AdjoinRoot.mk crcDivisor (bitsPoly (crcByte r x))
    = AdjoinRoot.mk crcDivisor (X ^ 8 * (bitsPoly r + X ^ 8 * bitsPoly x)) := by
  rw [crcByte, mk_crcShift, bitsPoly_xor, map_mul, map_add, mk_highByte, ← map_add, ← map_mul]

/-- The register after `s` is `s(x) * x^16` modulo the divisor (R131). -/
theorem mk_crc16 (s : List Byte) : AdjoinRoot.mk crcDivisor (bitsPoly (crc16 s))
    = AdjoinRoot.mk crcDivisor (bytesPoly s * X ^ 16) := by
  induction s using List.reverseRecOn with
  | nil => simp [crc16, bytesPoly, bitsPoly]
  | append_singleton s x ih =>
    calc AdjoinRoot.mk crcDivisor (bitsPoly (crc16 (s ++ [x])))
        = AdjoinRoot.mk crcDivisor (X ^ 8 * (bitsPoly (crc16 s) + X ^ 8 * bitsPoly x)) := by rw [crc16_snoc, mk_crcByte]
      _ = AdjoinRoot.mk crcDivisor (X ^ 8 * (bytesPoly s * X ^ 16 + X ^ 8 * bitsPoly x)) := by
        rw [map_mul, map_add, ih, ← map_add, ← map_mul]
      _ = AdjoinRoot.mk crcDivisor (bytesPoly (s ++ [x]) * X ^ 16) := by rw [bytesPoly_snoc]; congr 1; ring

/-- Settles O16: the loop by `crcShift_eq_foldl_range`, the division by `mk_crc16`. -/
theorem crc16IsThePolynomialRemainder : Obligations.Crc16IsThePolynomialRemainder := by
  refine ⟨rfl, fun s x => ?loop, fun s => ?division⟩
  case loop =>
    rw [crc16_snoc, crcByte, crcShift_eq_foldl_range]
    rfl
  case division =>
    obtain ⟨quotient, hq⟩ := AdjoinRoot.mk_eq_mk.mp (mk_crc16 s).symm
    exact ⟨quotient, (sub_eq_iff_eq_add.mp hq).trans (congrArg (· + _) (mul_comm _ _))⟩

end Sys2Proof.Machine
end

section
/-! SUPPORT. The scan of a FEED and the loop told rule by rule are one relation (R225 to R231, R234), what the loop leaves in
`BUF` (R238), and the empty chunk (R240). -/

namespace Sys2Proof.Machine

/-! ### The rules' searches -/

/-- FIND answers the first occurrence (R223). -/
theorem firstMark_iff {b : List Byte} {p i : Nat} : FirstMark b p i ↔ findMark b p = some i := findMark_eq_some.symm

/-- LASTMARK answers the final occurrence (R224). -/
theorem finalMark_iff {b : List Byte} {m : Nat} : FinalMark b m ↔ lastMark b = some m := lastMark_eq_some.symm

/-! ### One pass, a rule at a time -/

section
variable {p : Params} {b : List Byte} {r : ScanRegs} {i : Nat} {x : Extracted} {d : Datapath}

/-- Step 3a (R226). -/
theorem scanPass_drained (hf : findMark b r.pivot = none) : scanPass p b r = some (.stop [] .drained r) := by
  simp only [scanPass, hf]

/-- Step 3b (R227). -/
theorem scanPass_short {m : Nat} (hf : findMark b r.pivot = some i) (hlt : b.length - i < 14) (hm : r.lastmark = some m) :
    scanPass p b r = some (.stop (b.drop m) .missingBytes { r with index := some i }) := by
  simp only [scanPass, hf, Config.minFrame, hlt, if_true, ScanRegs.retain, hm, Option.map_some]

/-- Step 3d (R229). -/
theorem scanPass_accept {f : Frame} (hf : findMark b r.pivot = some i) (hge : 14 ≤ b.length - i)
    (hx : extract p (b.drop i) = some (.ok f, d)) :
    scanPass p b r = some (.again (({ r with index := some i } : ScanRegs).accept i f)) := by
  simp only [scanPass, hf, Config.minFrame, Nat.not_lt.mpr hge, if_false, hx]

/-- Step 3e (R230). -/
theorem scanPass_wait {h : RawHeader} (hf : findMark b r.pivot = some i) (hge : 14 ≤ b.length - i)
    (hx : extract p (b.drop i) = some (.missingBytes h, d)) (hm : r.lastmark = some i) :
    scanPass p b r = some (.stop (b.drop i) .missingBytes { r with index := some i }) := by
  simp only [scanPass, hf, Config.minFrame, Nat.not_lt.mpr hge, if_false, hx, hm, if_true, ScanRegs.retain, Option.map_some]

/-- Step 3f (R231). -/
theorem scanPass_skip (hf : findMark b r.pivot = some i) (hge : 14 ≤ b.length - i)
    (hx : extract p (b.drop i) = some (x, d)) (hok : x.status ≠ .ok)
    (hlast : ¬(x.status = .missingBytes ∧ r.lastmark = some i)) :
    scanPass p b r = some (.again (({ r with index := some i } : ScanRegs).skip i)) := by
  simp only [scanPass, hf, Config.minFrame, Nat.not_lt.mpr hge, if_false, hx]
  cases x with
  | ok f => exact absurd rfl hok
  | missingBytes h => exact if_neg fun hm => hlast ⟨rfl, hm⟩
  | errorLength h => rfl
  | errorCrc h => rfl

end

/-! ### The loop and the rules -/

/-- From the scan registers `r` the passes lead to one that stops with `kept`, `ph` and the frames `out`. -/
def ScanStopsFrom (p : Params) (b : List Byte) (r : ScanRegs) (kept : List Byte) (ph : Phase) (out : List Frame) : Prop :=
  ∃ r0 r', ScanReach p b r r0 ∧ scanPass p b r0 = some (.stop kept ph r') ∧ r'.newq = out

section
variable {p : Params} {b kept : List Byte} {ph : Phase} {out newq : List Frame} {r : ScanRegs} {pivot : Nat}

/-- The scan of a FEED is this from the registers of step 3's entry. -/
theorem scanEnd_iff : ScanEnd p b kept ph out ↔ ScanStopsFrom p b (ScanRegs.start (lastMark b)) kept ph out :=
  ⟨fun h => h.ended, fun h => ⟨h⟩⟩

theorem ScanStopsFrom.of_stop {r' : ScanRegs} (hs : scanPass p b r = some (.stop kept ph r')) :
    ScanStopsFrom p b r kept ph r'.newq :=
  ⟨r, r', .refl, hs, rfl⟩

theorem ScanStopsFrom.of_again {r1 : ScanRegs} (hs : scanPass p b r = some (.again r1))
    (h : ScanStopsFrom p b r1 kept ph out) : ScanStopsFrom p b r kept ph out := by
  obtain ⟨r0, r', hreach, hstop, hq⟩ := h
  exact ⟨r0, r', .head hs hreach, hstop, hq⟩

/-- Every rule is a pass of the loop, whatever `INDEX` held before. -/
theorem Scans.stopsFrom (h : Scans p b pivot newq kept ph out) (index : Option Nat) :
    ScanStopsFrom p b { lastmark := lastMark b, pivot := pivot, index := index, newq := newq } kept ph out := by
  induction h generalizing index with
  | drained hnone => exact .of_stop (scanPass_drained (findMark_eq_none.mpr hnone))
  | short hf hlt hm => exact .of_stop (scanPass_short (firstMark_iff.mp hf) hlt (finalMark_iff.mp hm))
  | accept hf hge hx _ ih => exact .of_again (scanPass_accept (firstMark_iff.mp hf) hge hx) (ih _)
  | wait hf hge hx hm => exact .of_stop (scanPass_wait (firstMark_iff.mp hf) hge hx (finalMark_iff.mp hm))
  | skip hf hge hx hok hlast _ ih =>
    rw [finalMark_iff] at hlast
    exact .of_again (scanPass_skip (firstMark_iff.mp hf) hge hx hok hlast) (ih _)

/-- A pass that stops is one of the rules 3a, 3b and 3e. -/
theorem scans_of_stop {r' : ScanRegs} (hs : scanPass p b r = some (.stop kept ph r')) (hl : r.lastmark = lastMark b) :
    Scans p b r.pivot r.newq kept ph r'.newq := by
  rcases scanPass_cases hs with ⟨hf, ho⟩ | ⟨i, hf, ⟨hlt, m, hm, ho⟩ | ⟨_, _, _, _, ho⟩ | ⟨hge, hm, ⟨hd, d, hx⟩, ho⟩ | ⟨_, _, ho⟩⟩
  · cases ho; exact .drained (findMark_eq_none.mp hf)
  · cases ho; exact .short (firstMark_iff.mpr hf) hlt (finalMark_iff.mpr (hl ▸ hm))
  · cases ho
  · cases ho; exact .wait (firstMark_iff.mpr hf) hge hx (finalMark_iff.mpr (hl ▸ hm))
  · cases ho

/-- A pass that goes on is rule 3d or 3f. -/
theorem scans_of_again {r1 : ScanRegs} (hs : scanPass p b r = some (.again r1)) (hl : r.lastmark = lastMark b)
    (h : Scans p b r1.pivot r1.newq kept ph out) : Scans p b r.pivot r.newq kept ph out := by
  rcases scanPass_cases hs with ⟨_, ho⟩ | ⟨i, hf, ⟨_, _, _, ho⟩ | ⟨hge, f, d, hx, ho⟩ | ⟨_, _, _, ho⟩ |
    ⟨hge, ⟨x, d, hx, hok, hlast⟩, ho⟩⟩
  · cases ho
  · cases ho
  · cases ho; exact .accept (firstMark_iff.mpr hf) hge hx h
  · cases ho
  · cases ho
    refine .skip (firstMark_iff.mpr hf) hge hx hok (fun hm => hlast hm.1 ?_) h
    rw [hl]; exact finalMark_iff.mp hm.2

/-- Every run of the loop is told by the rules. -/
theorem ScanStopsFrom.scans (h : ScanStopsFrom p b r kept ph out) (hl : r.lastmark = lastMark b) :
    Scans p b r.pivot r.newq kept ph out := by
  obtain ⟨r0, r', hreach, hstop, rfl⟩ := h
  induction hreach using Relation.ReflTransGen.head_induction_on with
  | refl => exact scans_of_stop hstop hl
  | head hs _ ih => exact scans_of_again hs hl (ih ((scanPass_again hs).2.trans hl))

/-- The scan of a FEED is the loop told rule by rule (R225 to R231). -/
theorem scanEnd_iff_scans : ScanEnd p b kept ph out ↔ Scans p b 0 [] kept ph out :=
  scanEnd_iff.trans ⟨fun h => h.scans rfl, fun h => h.stopsFrom none⟩

/-- The rules end in one way only. -/
theorem Scans.det {kept' : List Byte} {ph' : Phase} {out' : List Frame} (h : Scans p b 0 [] kept ph out)
    (h' : Scans p b 0 [] kept' ph' out') : kept' = kept ∧ ph' = ph ∧ out' = out :=
  (scanEnd_iff_scans.mpr h').det (scanEnd_iff_scans.mpr h)

end

/-! ### FEED by the rules -/

theorem chunkTooLong_iff {p : Params} {c : List Byte} :
    chunkTooLong p c = true ↔ ∃ m, p.chunkMax = some m ∧ m < c.length := by
  unfold chunkTooLong
  cases p.chunkMax <;> simp

theorem queueOverflows_unbounded {p : Params} (hp : p.queueCap = none) (q : List Frame) : queueOverflows p q = false := by
  rw [queueOverflows, hp]

/-- FEED within `CHUNK_MAX` and without a bound on the queue: the rules end, and FEED leaves what they give (R234). -/
theorem feedWith_scans {p : Params} {c : List Byte} (hp : p.queueCap = none) (hc : chunkTooLong p c = false) (s : State) :
    ∃ kept ph newq, Scans p (s.joined c) 0 [] kept ph newq ∧ feedWith p c s = .next (feedResult s kept ph newq) := by
  obtain ⟨kept, ph, newq, hend, hfeed⟩ := feedWith_run p c s hc
  rw [queueOverflows_unbounded hp] at hfeed
  exact ⟨kept, ph, newq, scanEnd_iff_scans.mp hend, hfeed⟩

/-- The operation FEED: the rules end, and it leaves what they give. -/
theorem exec_feed_scans (c : List Byte) (s : State) :
    ∃ kept ph newq, Scans (Config.params s.fw) (s.joined c) 0 [] kept ph newq ∧
      exec (.feed c) s = .next (feedResult s kept ph newq) :=
  feedWith_scans rfl rfl s

/-- The operation FEED leaves what the rules give. -/
theorem exec_feed_of_scans {c kept : List Byte} {s : State} {ph : Phase} {newq : List Frame}
    (h : Scans (Config.params s.fw) (s.joined c) 0 [] kept ph newq) :
    exec (.feed c) s = .next (feedResult s kept ph newq) := by
  obtain ⟨_, _, _, hscans, hfeed⟩ := exec_feed_scans c s
  obtain ⟨rfl, rfl, rfl⟩ := h.det hscans
  exact hfeed

/-- Settles O35: the loop is the rules (`feedWith_scans`), and they end in one way (`Scans.det`). -/
theorem feedFollowsItsSteps : Obligations.FeedFollowsItsSteps := by
  refine ⟨fun p c s hp => ⟨fun hwithin => ?within, fun hbeyond => ?beyond⟩, fun c s => ⟨rfl, rfl, rfl⟩⟩
  case within =>
    have hc : chunkTooLong p c = false := by
      rw [← Bool.not_eq_true, chunkTooLong_iff]
      rintro ⟨m, hm, hlt⟩
      exact absurd (hwithin m hm) (Nat.not_le.mpr hlt)
    obtain ⟨kept, ph, newq, hscans, hfeed⟩ := feedWith_scans hp hc s
    exact ⟨kept, ph, newq, hscans, fun _ _ _ => hscans.det, hfeed⟩
  case beyond => exact feedWith_tooLong p c s (chunkTooLong_iff.mpr hbeyond)

/-! ### What a FEED leaves in `BUF` -/

/-- `kept` is what a scan may keep at 3b or 3e: it begins with its only marker, and waits for more bytes than there are
(R238). -/
structure Retained (kept : List Byte) : Prop where
  front : FinalMark kept 0
  waits : kept.length < 14 ∨ (14 ≤ kept.length ∧ ∃ h, readHeader kept = some h ∧ kept.length < h.length.toNat)

namespace Retained
variable {kept : List Byte}

theorem two_le (h : Retained kept) : 2 ≤ kept.length := markerAt_lt h.front.1

/-- A declared length has 16 bits (R238). -/
theorem length_le (h : Retained kept) : kept.length ≤ 65534 := by
  rcases h.waits with hlt | ⟨_, hd, _, hlt⟩
  · omega
  · have := hd.length.isLt; omega

/-- Cut anywhere behind their first byte, the bytes hold no marker (R233, R238). -/
theorem markerAt_cut (h : Retained kept) {n : Nat} (hn : 0 < n) (i : Nat) : markerAt (kept.drop n) i = false := by
  rw [markerAt_drop]
  exact h.front.2 (n + i) (by omega)

/-- Scanned again they are kept again, by 3b or by 3e (R240). -/
theorem scans (h : Retained kept) (p : Params) : Scans p kept 0 [] kept .missingBytes [] := by
  have hfirst : FirstMark kept 0 0 := ⟨le_rfl, h.front.1, fun j _ hj => absurd hj (Nat.not_lt_zero j)⟩
  rcases h.waits with hlt | ⟨hge, hd, hread, hlen⟩
  · exact .short hfirst hlt h.front
  · have hx : extract p (kept.drop 0) =
        some (.missingBytes hd, { candidateRegs hd with status := some .missingBytes }) := by
      simp only [List.drop_zero, extract, hdrDecode, hread, hlen, if_true]
    exact .wait hfirst hge hx h.front

end Retained

/-- The scan kept nothing, or the bytes from the last marker on, which are `Retained` (R238). -/
theorem Scans.kept_cases {p : Params} {b kept : List Byte} {ph : Phase} {newq : List Frame}
    (h : Scans p b 0 [] kept ph newq) :
    (ph = .drained ∧ kept = []) ∨
    (ph = .missingBytes ∧ Retained kept ∧ ∃ m, FinalMark b m ∧ kept = b.drop m) := by
  rcases (scanEnd_iff_scans.mpr h).stop with hdrained | ⟨hph, m, hm, rfl, hwaits⟩
  · exact .inl hdrained
  · obtain ⟨hfront, honly⟩ := markerAt_drop_last hm
    refine .inr ⟨hph, ⟨⟨hfront, fun j hj => ?_⟩, hwaits⟩, m, finalMark_iff.mpr hm, rfl⟩
    by_contra hc
    exact absurd (honly j (by simpa using hc)) (by omega)

/-- Step 5 leaves bytes that fit as they are (R233). -/
theorem lastBytes_of_le {n : Nat} {b : List Byte} (h : b.length ≤ n) : lastBytes n b = b := if_neg (Nat.not_lt.mpr h)

/-- Step 5 cuts bytes that do not fit at the front (R233). -/
theorem lastBytes_of_lt {n : Nat} {b : List Byte} (h : n < b.length) : lastBytes n b = b.drop (b.length - n) := if_pos h

/-- Step 5 cut retained bytes exactly when no marker stands at their front any more (R238). -/
theorem Retained.lastBytes_cases {kept : List Byte} (h : Retained kept) (n : Nat) :
    (kept.length ≤ n ∧ lastBytes n kept = kept ∧ markerAt (lastBytes n kept) 0 = true) ∨
    (n < kept.length ∧ ∀ i, markerAt (lastBytes n kept) i = false) := by
  rcases Nat.lt_or_ge n kept.length with hlt | hle
  · refine .inr ⟨hlt, ?_⟩
    rw [lastBytes_of_lt hlt]
    exact h.markerAt_cut (Nat.sub_pos_of_lt hlt)
  · refine .inl ⟨hle, lastBytes_of_le hle, ?_⟩
    rw [lastBytes_of_le hle]
    exact h.front.1

/-- Settles O38: the two ways a scan ends (`Scans.kept_cases`), then step 5. -/
theorem feedRetainsFromTheLastMarker : Obligations.FeedRetainsFromTheLastMarker := by
  intro c s t ht
  obtain ⟨kept, ph, newq, hscans, hfeed⟩ := exec_feed_scans c s
  obtain rfl : feedResult s kept ph newq = t := Host.Outcome.next.inj (hfeed.symm.trans ht)
  rcases hscans.kept_cases with ⟨hph, rfl⟩ | ⟨hph, hkept, m, hm, hdrop⟩
  · exact .inl ⟨hph, rfl⟩
  · refine .inr ⟨hph, m, kept, hm, hdrop, hkept.two_le, hkept.length_le, hkept.front, fun hge => ?declares, ?bound,
      lastBytes_of_le, fun hlt => ⟨lastBytes_of_lt hlt, ?cut⟩⟩
    case declares => exact (hkept.waits.resolve_left (Nat.not_lt.mpr hge)).2
    case bound => exact (lastBytes_length _ _).trans_le (Nat.min_le_left _ _)
    case cut => exact ((hkept.lastBytes_cases _).resolve_left fun h => absurd h.1 (Nat.not_le.mpr hlt)).2

/-! ### The empty chunk -/

/-- Bytes without a marker are drained (R226). -/
theorem scans_of_no_marker {p : Params} {b : List Byte} (h : ∀ i, markerAt b i = false) : Scans p b 0 [] [] .drained [] :=
  .drained fun i _ => h i

/-- In accumulate mode the empty chunk scans the bytes of `BUF` once more (R221, R240). -/
theorem joined_nil_accumulate {s : State} (hm : s.mode = 1) : s.joined [] = s.buf := by
  rw [State.joined, if_pos hm, List.append_nil]

/-- In replace mode it leaves no byte to scan (R221, R240). -/
theorem joined_nil_replace {s : State} (hm : s.mode = 0) : s.joined [] = [] := by
  rw [State.joined, hm]; rfl

/-- In accumulate mode an empty chunk that finds no frame leaves the queue as it was (R232, R240). -/
theorem exec_feed_nil_accumulate {s : State} {kept : List Byte} {ph : Phase} (hm : s.mode = 1)
    (h : Scans (Config.params s.fw) s.buf 0 [] kept ph []) :
    exec (.feed []) s = .next { s with
      buf := lastBytes s.limit.toNat kept, phase := ph, scan := none, dp := Datapath.empty, resp := some .ok } := by
  rw [← joined_nil_accumulate hm] at h
  rw [exec_feed_of_scans h, feedResult, if_pos hm, List.append_nil]

/-- Settles O48: uncut bytes are retained again (`Retained.scans`), bytes without a marker are drained. -/
theorem emptyChunkRescans : Obligations.EmptyChunkRescans := by
  refine ⟨fun c s t ht hmode hphase => ?accumulate, fun s hmode => ?replace⟩
  case accumulate =>
    obtain ⟨kept, ph, newq, hscans, hfeed⟩ := exec_feed_scans c s
    obtain rfl : feedResult s kept ph newq = t := Host.Outcome.next.inj (hfeed.symm.trans ht)
    obtain ⟨rfl, -⟩ | ⟨rfl, hkept, -⟩ := hscans.kept_cases
    · cases hphase
    · rcases hkept.lastBytes_cases s.limit.toNat with ⟨_, huncut, hfront⟩ | ⟨_, hnone⟩
      · refine ⟨fun _ => ?_, fun hcut => absurd (hfront.symm.trans hcut) (by decide)⟩
        have hbuf : (feedResult s kept .missingBytes newq).buf = kept := huncut
        exact exec_feed_nil_accumulate hmode (hbuf.symm ▸ hkept.scans _)
      · refine ⟨fun hfront => absurd ((hnone 0).symm.trans hfront) (by decide), fun _ => ?_⟩
        exact exec_feed_nil_accumulate hmode (scans_of_no_marker hnone)
  case replace =>
    have hnone (i : Nat) : markerAt (s.joined []) i = false := by
      rw [joined_nil_replace hmode, markerAt, List.drop_nil]; rfl
    rw [exec_feed_of_scans (scans_of_no_marker hnone), feedResult, if_neg (by rw [hmode]; decide)]
    rfl

end Sys2Proof.Machine
end

section
/-! SUPPORT. The host operations apart from FEED: what each writes and answers (R261 to R271), and that every host operation
answers once (R272). -/

namespace Sys2Proof.Machine

/-! ### One response -/

/-- From `s` the operation `f` completes with one response, whatever response stood before; if that is an error, nothing
else of `s` has changed (R272). -/
def AnswersOnce (f : State → Host.Outcome State Fault Refusal) (s : State) : Prop :=
  ∃ t r, f s = .next t ∧ f { s with resp := none } = .next t ∧ t.resp = some r ∧
    ∀ e, r = .error e → t = { s with resp := some (.error e) }

namespace AnswersOnce
variable {f : State → Host.Outcome State Fault Refusal} {s t : State}

/-- An operation that completes with an answer other than an error may write any state. -/
theorem of_result {r : Response} (hf : f s = .next t) (hnone : f { s with resp := none } = .next t)
    (ht : t.resp = some r) (hr : ∀ e, r ≠ .error e) : AnswersOnce f s :=
  ⟨t, r, hf, hnone, ht, fun e he => absurd he (hr e)⟩

/-- A configuration error that is raised is the only write (R297). -/
theorem of_raise {e : ConfigError} (hf : ∀ u, f u = .next (u.raise e)) : AnswersOnce f s := by
  refine ⟨s.raise e, .error e, hf s, hf { s with resp := none }, rfl, ?_⟩
  rintro _ ⟨⟩
  rfl

end AnswersOnce

/-- FEED overwrites the response and never reads it (R272). -/
theorem feed_resp_none {c : List Byte} {s t : State} (h : feed c s = .next t) :
    feed c { s with resp := none } = .next t := by
  obtain ⟨kept, ph, newq, hscans, hfeed⟩ := exec_feed_scans c s
  have hnone : exec (.feed c) { s with resp := none } = .next (feedResult s kept ph newq) :=
    exec_feed_of_scans (s := { s with resp := none }) hscans
  exact hnone.trans (hfeed.symm.trans h)

theorem feed_answersOnce (c : List Byte) (s : State) : AnswersOnce (feed c) s := by
  obtain ⟨_, _, _, -, hfeed⟩ := feed_run c s
  exact .of_result hfeed (feed_resp_none hfeed) rfl nofun

/-- PARSE answers with its DRAIN (R110). -/
theorem execParse_answersOnce (c : List Byte) (s : State) : AnswersOnce (execParse c) s := by
  obtain ⟨_, _, _, -, hfeed⟩ := feed_run c s
  exact .of_result (execParse_of_feed hfeed) (execParse_of_feed (feed_resp_none hfeed)) rfl nofun

/-- Every 16-bit cap is within this machine's `LIMIT_MAX`. -/
theorem toNat_le_block_limitMax (n : U16) : n.toNat ≤ Config.block.limitMax := Nat.le_of_lt_succ n.isLt

/-- In this machine SET_LIMIT writes every cap but 0 (R263). -/
theorem execSetLimit_pos {n : U16} (hn : n.toNat ≠ 0) (s : State) :
    execSetLimit n s = .next { s with limit := n, resp := some .ok } :=
  congrArg Host.Outcome.next (writeLimit_legal hn (toNat_le_block_limitMax n) s)

/-- It refuses the cap 0 (R263). -/
theorem execSetLimit_zero {n : U16} (hn : n.toNat = 0) (s : State) : execSetLimit n s = .next (s.raise .eLimit) :=
  congrArg Host.Outcome.next (writeLimit_illegal (.inl hn) s)

theorem execSetLimit_answersOnce (n : U16) (s : State) : AnswersOnce (execSetLimit n) s := by
  by_cases hn : n.toNat = 0
  · exact .of_raise (execSetLimit_zero hn)
  · exact .of_result (execSetLimit_pos hn s) (execSetLimit_pos hn _) rfl nofun

/-- SET_FW writes a key of `FW_SET` and refuses any other (R264). -/
theorem execSetFw_answersOnce (k : Nat) (s : State) : AnswersOnce (execSetFw k) s := by
  rcases Nat.lt_or_ge Config.block.fwOthers k with hunknown | hknown
  · exact .of_raise fun u => congrArg Host.Outcome.next (writeFw_unknown hunknown u)
  · have hwrite (u : State) : execSetFw k u = .next { u with fw := k, resp := some .ok } :=
      congrArg Host.Outcome.next (writeFw_known hknown u)
    exact .of_result (hwrite s) (hwrite _) rfl nofun

/-- Settles O9, operation by operation: the FEEDs and PARSE complete, the two checked setters and the reserved words may
raise, the others write and answer without a test. -/
theorem hostOperationsAnswerOnce : Obligations.HostOperationsAnswerOnce := by
  intro i s hhost
  change AnswersOnce (exec i) s
  cases i with
  | feed c => exact feed_answersOnce c s
  | frame crc num rev len tow wnc body => exact feed_answersOnce (frameBytes crc num rev len tow wnc body) s
  | feedb b => exact feed_answersOnce [b] s
  | parse c => exact execParse_answersOnce c s
  | setLimit n => exact execSetLimit_answersOnce n s
  | setFw k => exact execSetFw_answersOnce k s
  | drain | flush => exact .of_result rfl rfl rfl nofun
  | setMode | setModeAcc | setModeRep => exact .of_result rfl rfl rfl nofun
  | getMode | getLimit | getFw | getBuf | getStatus => exact .of_result rfl rfl rfl nofun
  | reset => exact .of_result rfl rfl rfl nofun
  | reserved0 | reservedB | reservedC | reservedD | reservedE | reservedHi => exact .of_raise (exec_reserved rfl)
  | _ => exact absurd rfl hhost

/-! ### What each operation writes -/

/-- Settles O1: DRAIN is `drain_eq`, and the second one finds an empty queue. -/
theorem drainReturnsTheQueue : Obligations.DrainReturnsTheQueue := by
  refine ⟨rfl, fun s => ⟨drain s, rfl, drain_eq s, ?_⟩⟩
  exact congrArg Host.Outcome.next (drain_eq (drain s))

/-- Settles O2: SET_MODE is `writeMode_eq`, and step 1 of a FEED is `feedInput_eq`. -/
theorem setModeWritesMode : Obligations.SetModeWritesMode := by
  refine ⟨fun b => ?word, fun m s => ⟨writeMode m s, rfl, writeMode_eq m s, rfl, fun c => ?nextFeed⟩⟩
  case word =>
    have hbit : b.setWidth 1 = b.extractLsb' 0 1 := BitVec.setWidth_eq_extractLsb' (by decide)
    exact congrArg (Except.ok ∘ Instr.setMode) hbit
  case nextFeed => rw [feedInput_eq, writeMode_eq]

/-- Settles O3: the two laws of `writeLimit`, under any parameters and under this machine's. -/
theorem setLimitWritesLimit : Obligations.SetLimitWritesLimit :=
  ⟨fun b0 b1 => ⟨u16le b0 b1, u16le_toNat b0 b1, rfl⟩,
    fun _ _ s => ⟨fun h0 hmax => writeLimit_legal h0 hmax s, fun h => writeLimit_illegal h s⟩,
    fun _ s => ⟨rfl, fun h => execSetLimit_pos h s, fun h => execSetLimit_zero h s⟩⟩

/-- Settles O5: each word is an entry of the decoder's table, each read-back answers a field of the state, and the values
after reset are those of `State.resetWith`. -/
theorem gettersAnswerTheRegisters : Obligations.GettersAnswerTheRegisters := by
  refine ⟨?words, fun s => ?answers, ?afterReset⟩
  case words => exact ⟨rfl, rfl, rfl, rfl, rfl⟩
  case answers => exact ⟨rfl, rfl, rfl, rfl, rfl⟩
  case afterReset => exact ⟨rfl, rfl, rfl, rfl, rfl, rfl⟩

/-- The block's state and the answer after RESET, whatever the state before (R43, R270). -/
theorem resetBlock_values (b : BlockParams) (s : State) : ∃ t, t = resetBlock b s ∧
    t.buf = [] ∧ t.q = [] ∧ t.limit.toNat = 65535 ∧ t.mode = b.resetMode ∧ t.fw = b.fwReset ∧ t.phase = .idle ∧
    t.scan = none ∧ t.dp = Datapath.empty ∧ t.resp = some .ok := by
  refine ⟨_, (resetBlock_eq b s).symm, ?_⟩
  exact ⟨rfl, rfl, rfl, rfl, rfl, rfl, rfl, rfl, rfl⟩

/-- Settles O6: the values are `resetBlock_values` at any parameters and at this machine's, which are `block_legal`. -/
theorem resetGivesTheResetValues : Obligations.ResetGivesTheResetValues := by
  refine ⟨resetBlock_values, fun _ => rfl, block_legal, fun s => ?machine, rfl, rfl⟩
  obtain ⟨_, rfl, hvalues⟩ := resetBlock_values Config.block s
  exact ⟨resetBlock Config.block s, rfl, hvalues⟩

/-- Settles O7: the six words are of the reserved format, and `exec_reserved` is its meaning. -/
theorem reservedWordsAnswerECmd : Obligations.ReservedWordsAnswerECmd := by
  intro h o s i hi
  have hreserved : i.format = .reserved := by
    simp only [List.mem_cons, List.not_mem_nil, or_false] at hi
    rcases hi with rfl | rfl | rfl | rfl | rfl | rfl <;> rfl
  exact exec_reserved hreserved s

end Sys2Proof.Machine
end

section
/-! SUPPORT. No stream of bytes stops the block (R299), and the one fault is that of a finite `QUEUE_CAP` (R302). -/

namespace Sys2Proof.Machine

/-! ### Every FEED completes -/

/-- Every host operation completes from every state: that it answers once says so (R272). -/
theorem exec_host_completes {i : Instr} (hhost : i.format ≠ .internal) (s : State) : ∃ t, exec i s = .next t := by
  obtain ⟨t, _, ht, -⟩ := hostOperationsAnswerOnce i s hhost
  exact ⟨t, ht⟩

/-- An operation that is a FEED runs FEED on its chunk, but for PARSE, which drains the queue after it (R110). -/
theorem fedChunk_cases {i : Instr} {c : List Byte} (h : fedChunk i = some c) :
    (i ≠ .parse c ∧ ∀ s, exec i s = feed c s) ∨ i = .parse c := by
  cases i with
  | feed c' => cases h; exact .inl ⟨nofun, fun _ => rfl⟩
  | frame crc num rev len tow wnc body => cases h; exact .inl ⟨nofun, fun _ => rfl⟩
  | feedb b => cases h; exact .inl ⟨nofun, fun _ => rfl⟩
  | parse c' => cases h; exact .inr rfl
  | _ => cases h

/-- Settles O36: the FEED ends in `feedResult`, PARSE in its `drain`, and host operations complete from any state. -/
theorem feedsAlwaysComplete : Obligations.FeedsAlwaysComplete := by
  intro i c s hfed
  obtain ⟨kept, ph, newq, -, hfeed⟩ := feed_run c s
  obtain ⟨hne, hexec⟩ | rfl := fedChunk_cases hfed
  · refine ⟨feedResult s kept ph newq, (hexec s).trans hfeed, fun _ => rfl, fun he => absurd he hne,
      fun j hj => exec_host_completes hj _, ?_⟩
    exact ⟨rfl, rfl, rfl, rfl, rfl, rfl, rfl⟩
  · refine ⟨drain (feedResult s kept ph newq), execParse_of_feed hfeed, fun hne => absurd rfl hne,
      fun _ => ⟨_, rfl⟩, fun j hj => exec_host_completes hj _, ?_⟩
    exact ⟨rfl, rfl, rfl, rfl, rfl, rfl, rfl⟩

/-! ### The bound on the queue -/

theorem queueOverflows_iff {p : Params} {q : List Frame} :
    queueOverflows p q = true ↔ ∃ m, p.queueCap = some m ∧ m < q.length := by
  unfold queueOverflows
  cases p.queueCap <;> simp

/-- The scan never reads the bound on the queue (R302). -/
theorem ScanEnd.of_queueCap {p : Params} {cap : Option Nat} {b kept : List Byte} {ph : Phase} {newq : List Frame}
    (h : ScanEnd { p with queueCap := cap } b kept ph newq) : ScanEnd p b kept ph newq :=
  ⟨h.ended⟩

/-- FEED within `CHUNK_MAX` under every bound on the queue at once: one state, unless its queue is too long (R302). -/
theorem feedWith_queueCap (p : Params) (c : List Byte) (s : State) (hc : chunkTooLong p c = false) :
    ∃ kept ph newq, ∀ cap, feedWith { p with queueCap := cap } c s =
      if queueOverflows { p with queueCap := cap } (feedResult s kept ph newq).q then .fault .queueOverflow
      else .next (feedResult s kept ph newq) := by
  obtain ⟨kept, ph, newq, hend, -⟩ := feedWith_run p c s hc
  refine ⟨kept, ph, newq, fun cap => ?_⟩
  obtain ⟨kept', ph', newq', hend', hfeed⟩ := feedWith_run { p with queueCap := cap } c s hc
  obtain ⟨rfl, rfl, rfl⟩ := hend.det hend'.of_queueCap
  exact hfeed

/-- What a bound on the queue does to a FEED that completes without it: beyond `CHUNK_MAX` nothing, for no frame joins
the queue; within it the fault, if the queue it leaves is longer than the bound (R302). -/
theorem feedWith_finite {p : Params} {c : List Byte} {s t : State}
    (h : feedWith { p with queueCap := none } c s = .next t) (m : Nat) :
    feedWith { p with queueCap := some m } c s =
      if t.resp = some .ok ∧ m < t.q.length then .fault .queueOverflow else .next t := by
  cases hc : chunkTooLong p c with
  | true =>
    obtain rfl : s.raise .eChunk = t :=
      Host.Outcome.next.inj ((feedWith_tooLong { p with queueCap := none } c s hc).symm.trans h)
    have hresp : (s.raise .eChunk).resp ≠ some .ok := nofun
    rw [if_neg fun hok => hresp hok.1]
    exact feedWith_tooLong _ c s hc
  | false =>
    obtain ⟨kept, ph, newq, hfeed⟩ := feedWith_queueCap p c s hc
    obtain rfl : feedResult s kept ph newq = t := Host.Outcome.next.inj ((hfeed none).symm.trans h)
    have hresp : (feedResult s kept ph newq).resp = some .ok := rfl
    simp only [hfeed, queueOverflows_iff, Option.some.injEq, exists_eq_left', hresp, true_and]

/-- Without a bound on the queue FEED completes, with an answer or with `E_CHUNK` (R220, R302). -/
theorem feedWith_unbounded_completes {p : Params} (hp : p.queueCap = none) (c : List Byte) (s : State) :
    ∃ t, feedWith p c s = .next t := by
  cases hc : chunkTooLong p c with
  | true => exact ⟨_, feedWith_tooLong p c s hc⟩
  | false =>
    obtain ⟨_, _, _, -, hfeed⟩ := feedWith_scans hp hc s
    exact ⟨_, hfeed⟩

/-! ### No operation of this machine faults -/

theorem ne_fault_of_next {o : Host.Outcome State Fault Refusal} (h : ∃ t, o = .next t) (r : Fault) : o ≠ .fault r := by
  obtain ⟨t, rfl⟩ := h
  nofun

/-- An operation that may have no result is refused without one, which is no fault. -/
theorem yieldOr_ne_fault (why : Refusal) (v : Option Result) (s : State) (r : Fault) : yieldOr why v s ≠ .fault r := by
  cases v <;> nofun

theorem execHdrDecode_ne_fault (b : List Byte) (s : State) (r : Fault) : execHdrDecode b s ≠ .fault r := by
  unfold execHdrDecode
  split <;> nofun

theorem execTimeDecode_ne_fault (f : List Byte) (s : State) (r : Fault) : execTimeDecode f s ≠ .fault r := by
  unfold execTimeDecode
  split <;> nofun

theorem execExtract_ne_fault (b : List Byte) (s : State) (r : Fault) : execExtract b s ≠ .fault r := by
  unfold execExtract
  split <;> nofun

/-- An internal operation completes, or is refused outside its contract (R66, R170). -/
theorem exec_internal_ne_fault {i : Instr} (hi : i.format = .internal) (s : State) (r : Fault) :
    exec i s ≠ .fault r := by
  cases i with
  | crc16 | sentN | regDecode | find | lastmark | decodeLayout => nofun
  | hdrDecode b => exact execHdrDecode_ne_fault b s r
  | timeDecode f => exact execTimeDecode_ne_fault f s r
  | extract b => exact execExtract_ne_fault b s r
  | fldU8 | fldU16 | fldU32 | fldI8 | fldI16 | fldI32 | fldF32 | fldF64 | fldBits | fldPad =>
    exact yieldOr_ne_fault _ _ s r
  | _ => cases hi

/-- Settles O50: the bound decides by `feedWith_finite`; without one FEED completes, and so does every host operation of
this machine, while the internal ones have no fault. -/
theorem finiteQueueFaults : Obligations.FiniteQueueFaults := by
  refine ⟨fun p m c s t h => feedWith_finite h m,
    fun p c s r => ne_fault_of_next (feedWith_unbounded_completes rfl c s) r, fun i s r => ?machine⟩
  by_cases hi : i.format = .internal
  · exact exec_internal_ne_fault hi s r
  · exact ne_fault_of_next (exec_host_completes hi s) r

end Sys2Proof.Machine
end

section
/-! SUPPORT. The decoder: it reads back what the encoder writes (R106 to R108, R110, R111), a chunk on the stream port is a
FEED of its bytes (R273), and what a step takes from the port (R71, R72, R303). -/

namespace Sys2Proof.Machine

/-! ### Command words -/

/-- Command word 0x5 reads its operand bytes with the block's own number of them (R106). -/
theorem decode_setFw (ops : List Byte) : decode (.command (0x05 :: ops)) = decodeSetFw fwBytes ops := rfl

/-- A command word with a non-zero bit in 7:4 is read as its two halves, whatever follows it (R108). -/
theorem decodeWord_high {h : BitVec 4} (hh : h ≠ 0) (o : BitVec 4) (ops : List Byte) :
    decodeWord (h ++ o) ops = .ok (.reservedHi h o) := by
  have hhigh : (h ++ o).extractLsb' 4 4 = h := BitVec.extractLsb'_append_eq_left
  have hlow : (h ++ o).extractLsb' 0 4 = o := BitVec.extractLsb'_append_eq_right
  simp only [decodeWord, hhigh, hlow, ne_eq, hh, not_false_eq_true, if_true]

/-- The operand byte of SET_MODE is read back as the mode it was made of (R106). -/
theorem decodeSetMode_setWidth (m : BitVec 1) : decodeSetMode [m.setWidth 8] = .ok (.setMode m) :=
  congrArg (Except.ok ∘ Instr.setMode) (BitVec.setWidth_setWidth_of_le m (by decide))

/-- So are the operand bytes of SET_LIMIT (R106). -/
theorem decodeSetLimit_bytes16 (n : U16) : decodeSetLimit (bytes16 n) = .ok (.setLimit n) :=
  congrArg (Except.ok ∘ Instr.setLimit) (u16le_bytes16 n)

/-- So are the operand bytes of SET_FW, when the key fits them (R106). -/
theorem decodeSetFw_leBytes {n k : Nat} (hk : k < 256 ^ n) : decodeSetFw n (leBytes n k) = .ok (.setFw k) := by
  rw [decodeSetFw, if_pos (leBytes_length n k), leNat_leBytes n k hk]

/-- Settles O52, operation by operation: the operands are read back by the lemmas above, a frame by
`decodeStream_frameBytes`, and the other words are entries of the decoder's table. -/
theorem encodingRoundTrip : Obligations.EncodingRoundTrip := by
  intro i hwf hhost
  cases i with
  | setMode m => exact congrArg ([·]) (decodeSetMode_setWidth m)
  | setLimit n => exact congrArg ([·]) (decodeSetLimit_bytes16 n)
  | setFw k => exact congrArg ([·]) ((decode_setFw _).trans (decodeSetFw_leBytes (of_decide_eq_true hwf)))
  | reservedHi h o => exact congrArg ([·]) (decodeWord_high (of_decide_eq_true hwf) o [])
  | frame crc num rev len tow wnc body =>
    exact congrArg (fun i => [Except.ok i]) (decodeStream_frameBytes crc num rev len tow wnc body)
  | feed | drain | getMode | getLimit | getFw | getBuf | getStatus | reset => rfl
  | reserved0 | reservedB | reservedC | reservedD | reservedE => rfl
  | parse | setModeAcc | setModeRep | flush | feedb => rfl
  | _ => exact absurd rfl hhost

/-- Settles O53: each word is an entry of the decoder's table, and the operand bytes of SET_FW are little-endian. -/
theorem commandWordsDecode : Obligations.CommandWordsDecode :=
  ⟨rfl, rfl, rfl, decode_setFw, rfl, rfl, rfl, rfl, rfl, rfl⟩

/-- Settles O4: the operand bytes by `decode_setFw`, and the two laws of `writeFw`, under any parameters and under this
machine's. -/
theorem setFwWritesFw : Obligations.SetFwWritesFw := by
  refine ⟨fun ops hlen => ?key, fun ops hlen => ?refused,
    fun _ k s => ⟨fun h => writeFw_known h s, fun h => writeFw_unknown h s⟩,
    fun k s => ⟨fun h => ⟨?known, fun _ => rfl⟩, fun h => ?unknown⟩⟩
  case key =>
    have hvalue : bytesValue ops 0 fwBytes = leNat ops := by
      rw [bytesValue_eq (by omega), List.drop_zero, List.take_of_length_le hlen.le]
    rw [decode_setFw, decodeSetFw, if_pos hlen, hvalue]
  case refused => rw [decode_setFw, decodeSetFw, if_neg hlen]
  case known => exact congrArg Host.Outcome.next (writeFw_known (b := Config.block) h s)
  case unknown => exact congrArg Host.Outcome.next (writeFw_unknown (b := Config.block) h s)

/-! ### Chunks of the stream port -/

/-- Settles O51: a chunk is read as a FEED of it or as the FRAME whose wire bytes it is (`decodeStream_cases`), and FRAME is
the FEED of its wire bytes. -/
theorem streamChunkIsFeed : Obligations.StreamChunkIsFeed := by
  intro c s
  rcases decodeStream_cases c with hfeed | ⟨crc, num, rev, len, tow, wnc, body, hframe, hbytes⟩
  · exact ⟨by rw [hfeed], fun _ _ _ _ _ _ _ => ⟨rfl, fun h => by rw [hfeed] at h; cases h⟩⟩
  · refine ⟨?_, fun _ _ _ _ _ _ _ => ⟨rfl, fun h => ?_⟩⟩
    · calc exec (decodeStream c) s = exec (.feed (frameBytes crc num rev len tow wnc body)) s := by rw [hframe]; rfl
        _ = exec (.feed c) s := by rw [hbytes]
    · rw [hframe] at h; cases h; exact hbytes

/-! ### A step -/

/-- Settles O54, by the port's three cases. -/
theorem stepRunsTheDecodedOperation : Obligations.StepRunsTheDecodedOperation := by
  refine fun s => ⟨fun t rest i hport hi => ?runs, fun t rest e hport he => ?refused, fun hport => ?idle⟩
  case runs => simp only [step, hport, fetched, hi]; rfl
  case refused => simp only [step, hport, fetched, he]
  case idle => simp only [step, hport]

end Sys2Proof.Machine
end

section
/-! SUPPORT. The frames of a FEED: where they stand in the bytes it worked on (R237), and what becomes of a well-formed frame
fed whole, in two parts, and with bytes behind it (R239). -/

namespace Sys2Proof.Machine

/-! ### The bytes of a FEED and the state it leaves -/

/-- With nothing retained, or in replace mode, a FEED works on its own chunk alone (R221). -/
theorem joined_of_fresh {s : State} (h : s.buf = [] ∨ s.mode = 0) (c : List Byte) : s.joined c = c := by
  unfold State.joined
  rcases h with hbuf | hmode
  · rw [hbuf, List.nil_append, ite_self]
  · rw [hmode]; rfl

/-- In accumulate mode a FEED works on the bytes retained and its chunk behind them (R221). -/
theorem joined_accumulate {s : State} (hmode : s.mode = 1) (c : List Byte) : s.joined c = s.buf ++ c := if_pos hmode

/-- In accumulate mode a FEED that finds no frame leaves the queue as it was (R232). -/
theorem feedResult_no_frame {s : State} (hmode : s.mode = 1) (kept : List Byte) (ph : Phase) :
    feedResult s kept ph [] = { s with
      buf := lastBytes s.limit.toNat kept, phase := ph, scan := none, dp := Datapath.empty, resp := some .ok } := by
  rw [feedResult, if_pos hmode, List.append_nil]

/-- A FEED that completes left what the rules give. -/
theorem scans_of_exec_feed {c : List Byte} {s t : State} (h : exec (.feed c) s = .next t) :
    ∃ kept ph newq, Scans (Config.params s.fw) (s.joined c) 0 [] kept ph newq ∧ t = feedResult s kept ph newq := by
  obtain ⟨kept, ph, newq, hscans, hfeed⟩ := exec_feed_scans c s
  exact ⟨kept, ph, newq, hscans, Host.Outcome.next.inj (h.symm.trans hfeed)⟩

/-- Settles O37: step 5 keeps at most `LIMIT` bytes, and the DRAIN of PARSE keeps `BUF`. -/
theorem feedBoundsTheBuffer : Obligations.FeedBoundsTheBuffer := by
  intro i c s t hfed ht
  obtain ⟨kept, ph, newq, -, hfeed⟩ := feed_run c s
  have hbound : (feedResult s kept ph newq).buf.length ≤ s.limit.toNat :=
    (lastBytes_length _ _).trans_le (Nat.min_le_left _ _)
  obtain ⟨-, hexec⟩ | rfl := fedChunk_cases hfed
  · obtain rfl := Host.Outcome.next.inj (((hexec s).trans hfeed).symm.trans ht)
    exact ⟨hbound, rfl⟩
  · obtain rfl := Host.Outcome.next.inj ((execParse_of_feed hfeed).symm.trans ht)
    exact ⟨hbound, rfl⟩

/-- Settles O40: in replace mode neither step 1 nor step 4 reads what stood before. -/
theorem replaceModeForgets : Obligations.ReplaceModeForgets := by
  intro c b q s hmode
  obtain ⟨kept, ph, newq, hscans, hfeed⟩ := exec_feed_scans c s
  have hjoined : s.joined c = ({ s with buf := b, q := q } : State).joined c :=
    (joined_of_fresh (.inr hmode) c).trans (joined_of_fresh (s := { s with buf := b, q := q }) (.inr hmode) c).symm
  have hforgot : exec (.feed c) { s with buf := b, q := q } = .next (feedResult { s with buf := b, q := q } kept ph newq) :=
    exec_feed_of_scans (hjoined ▸ hscans)
  have hreplace : s.mode ≠ 1 := by rw [hmode]; decide
  rw [hfeed, hforgot]
  simp only [feedResult, if_neg hreplace]

/-- No marker stands at the last byte or beyond: both its bytes must be there (R223). -/
theorem markerAt_beyond {b : List Byte} {i : Nat} (h : b.length ≤ i + 1) : markerAt b i = false :=
  Bool.eq_false_iff.mpr fun hmark => absurd (markerAt_lt hmark) (Nat.not_lt.mpr h)

/-- One byte holds no marker (R91, R341). -/
theorem markerAt_of_length_le_one {b : List Byte} (h : b.length ≤ 1) (i : Nat) : markerAt b i = false :=
  markerAt_beyond (h.trans (Nat.le_add_left 1 i))

/-- Settles O47: one byte holds no marker, so it is drained. -/
theorem singleBytesAreLost : Obligations.SingleBytesAreLost := by
  intro b s hfresh
  have hnone (i : Nat) : markerAt (s.joined [b]) i = false := by
    rw [joined_of_fresh hfresh]; exact markerAt_of_length_le_one le_rfl i
  have hfeed : exec (.feedb b) s = .next (feedResult s [] .drained []) := exec_feed_of_scans (scans_of_no_marker hnone)
  rw [hfeed, feedResult, List.append_nil]
  rfl

/-! ### Where the frames stand -/

/-- The frame `af.2` stands in `b` at the offset `af.1`, at or behind `pivot`, and is decoded from its own bytes (R237). -/
structure FrameSpan (p : Params) (b : List Byte) (pivot : Nat) (af : Nat × Frame) : Prop where
  from_pivot : pivot ≤ af.1
  wellFormed : wellFormedFrame af.2.raw = true
  raw_eq : af.2.raw = (b.drop af.1).take af.2.raw.length
  inside : af.1 + af.2.raw.length ≤ b.length
  decoded : af.2.DecodedFrom p af.2.raw

theorem FrameSpan.of_le {p : Params} {b : List Byte} {pivot pivot' : Nat} {af : Nat × Frame} (h : FrameSpan p b pivot' af)
    (hle : pivot ≤ pivot') : FrameSpan p b pivot af :=
  { h with from_pivot := hle.trans h.from_pivot }

/-- What EXTRACT accepts at a marker stands there, as long as its header says (R101, R237). -/
theorem frameSpan_of_extract {p : Params} {b : List Byte} {pivot i : Nat} {f : Frame} {d : Datapath}
    (hf : FirstMark b pivot i) (hx : extract p (b.drop i) = some (.ok f, d)) :
    FrameSpan p b pivot (i, f) ∧ f.raw.length = f.header.length.toNat := by
  obtain ⟨hle, hmark, -⟩ := hf
  obtain ⟨hwf, hraw, hinside, -, hheader, htime, hresult⟩ := extract_ok hx (by rw [markerAt_drop]; exact hmark)
  rw [List.length_drop] at hinside
  have hlen : f.raw.length = f.header.length.toNat := by rw [hraw, List.length_take, List.length_drop]; omega
  have hmarker := markerAt_lt hmark
  exact ⟨⟨hle, hwf, by rw [hlen]; exact hraw, by simp only [hlen]; omega, rfl, hheader, htime, hresult⟩, hlen⟩

/-- The frames that the scan delivers stand in the buffer from `PIVOT` on, in their order and without overlap (R237). -/
theorem Scans.spans {p : Params} {b kept : List Byte} {pivot : Nat} {newq out : List Frame} {ph : Phase}
    (h : Scans p b pivot newq kept ph out) : ∃ spans : List (Nat × Frame), out = newq ++ spans.map Prod.snd ∧
      (∀ af ∈ spans, FrameSpan p b pivot af) ∧ spans.Pairwise fun x y => x.1 + x.2.raw.length ≤ y.1 := by
  induction h with
  | drained _ => exact ⟨[], (List.append_nil _).symm, nofun, .nil⟩
  | short _ _ _ => exact ⟨[], (List.append_nil _).symm, nofun, .nil⟩
  | wait _ _ _ _ => exact ⟨[], (List.append_nil _).symm, nofun, .nil⟩
  | @accept _ i _ _ _ _ f _ hf _ hx _ ih =>
    obtain ⟨spans, hout, hspans, hpairwise⟩ := ih
    obtain ⟨hspan, hlen⟩ := frameSpan_of_extract hf hx
    refine ⟨(i, f) :: spans, by simp [hout], fun af haf => ?_, .cons (fun af haf => ?_) hpairwise⟩
    · rcases List.mem_cons.mp haf with rfl | haf
      · exact hspan
      · exact (hspans af haf).of_le (hf.1.trans (Nat.le_add_right _ _))
    · rw [hlen]; exact (hspans af haf).from_pivot
  | skip hf _ _ _ _ _ ih =>
    obtain ⟨spans, hout, hspans, hpairwise⟩ := ih
    exact ⟨spans, hout, fun af haf => (hspans af haf).of_le (hf.1.trans (Nat.le_succ _)), hpairwise⟩

/-- Settles O39: the frames stand where `Scans.spans` says, and step 4 delivers them by `MODE`. -/
theorem feedDeliversFramesInOrder : Obligations.FeedDeliversFramesInOrder := by
  intro c s t ht
  obtain ⟨kept, ph, newq, hscans, rfl⟩ := scans_of_exec_feed ht
  obtain ⟨spans, rfl, hspans, hpairwise⟩ := hscans.spans
  refine ⟨spans, ?queue, fun af haf => ?_, hpairwise⟩
  case queue => rw [feedResult, List.nil_append]; split <;> rfl
  · have h := hspans af haf
    exact ⟨h.wellFormed, h.raw_eq, h.inside, h.decoded⟩

/-- No well-formed frame stands anywhere in `b`. -/
def FrameFree (b : List Byte) : Prop := ∀ a n, a + n ≤ b.length → wellFormedFrame ((b.drop a).take n) = false

/-- Bytes in which no well-formed frame stands yield none (R237). -/
theorem Scans.frameFree {p : Params} {b kept : List Byte} {ph : Phase} {out : List Frame} (h : Scans p b 0 [] kept ph out)
    (hb : FrameFree b) : out = [] := by
  obtain ⟨spans, rfl, hspans, -⟩ := h.spans
  obtain rfl : spans = [] := List.eq_nil_iff_forall_not_mem.mpr fun af haf => by
    have hspan := hspans af haf
    have hwf := hspan.wellFormed
    rw [hspan.raw_eq, hb _ _ hspan.inside] at hwf
    cases hwf
  rfl

/-! ### A well-formed frame at the front -/

/-- The Frame decoded from bytes that hold a header and a time block is the one EXTRACT builds (R166, R167). -/
theorem decodedFrom_iff {p : Params} {f : List Byte} {h : RawHeader} {t : U32 × U16} {fr : Frame}
    (hr : readHeader f = some h) (ht : readTime f = some t) : fr.DecodedFrom p f ↔ fr = acceptFrame p h f t := by
  obtain ⟨header, time, result, raw⟩ := fr
  simp only [Frame.DecodedFrom, timeDecode, hr, ht, Option.map_some, Option.some.injEq, acceptFrame, Frame.mk.injEq]
  constructor
  · rintro ⟨rfl, rfl, rfl, rfl⟩; exact ⟨rfl, rfl, rfl, rfl⟩
  · rintro ⟨rfl, rfl, rfl, rfl⟩; exact ⟨rfl, rfl, rfl, rfl⟩

theorem exists_decodedFrom {f : List Byte} (hf : wellFormedFrame f = true) (p : Params) :
    ∃ fr : Frame, fr.DecodedFrom p f := by
  obtain ⟨h, t, hr, ht, -, -⟩ := extract_wellFormed hf
  exact ⟨_, (decodedFrom_iff hr ht).mpr rfl⟩

theorem wellFormedFrame_markerAt {f : List Byte} (hf : wellFormedFrame f = true) : markerAt f 0 = true := by
  obtain ⟨h, hr, -, hsync, -⟩ := wellFormedFrame_iff.mp hf
  exact (readHeader_sync hr).mp hsync

theorem wellFormedFrame_length {f : List Byte} (hf : wellFormedFrame f = true) : 16 ≤ f.length := by
  obtain ⟨_, -, h16, -⟩ := wellFormedFrame_iff.mp hf
  exact h16

/-- EXTRACT at the front of a frame answers the Frame decoded from it, whatever follows (R164, R172). -/
theorem extract_decodedFrom {p : Params} {f : List Byte} {fr : Frame} (hf : wellFormedFrame f = true)
    (hfr : fr.DecodedFrom p f) (g : List Byte) :
    (∃ d, extract p (f ++ g) = some (.ok fr, d)) ∧ fr.header.length.toNat = f.length := by
  obtain ⟨h, t, hr, ht, hlen, hx⟩ := extract_wellFormed hf
  obtain rfl := (decodedFrom_iff hr ht).mp hfr
  exact ⟨hx p g, hlen⟩

/-- A search has one answer (R223). -/
theorem FirstMark.unique {b : List Byte} {pivot i j : Nat} (hi : FirstMark b pivot i) (hj : FirstMark b pivot j) : i = j :=
  Option.some.inj ((firstMark_iff.mp hi).symm.trans (firstMark_iff.mp hj))

/-- Where EXTRACT accepts the candidate, the scan goes on behind it, and only so (R229). -/
theorem scans_accept_iff {p : Params} {b kept : List Byte} {pivot i : Nat} {newq out : List Frame} {ph : Phase} {f : Frame}
    {d : Datapath} (hf : FirstMark b pivot i) (hge : 14 ≤ b.length - i) (hx : extract p (b.drop i) = some (.ok f, d)) :
    Scans p b pivot newq kept ph out ↔ Scans p b (i + f.header.length.toNat) (newq ++ [f]) kept ph out := by
  refine ⟨fun h => ?_, .accept hf hge hx⟩
  cases h with
  | drained hnone => exact absurd ((hnone i hf.1).symm.trans hf.2.1) (by decide)
  | short hf' hlt _ => obtain rfl := hf.unique hf'; omega
  | accept hf' _ hx' hrest =>
    obtain rfl := hf.unique hf'
    rw [hx] at hx'; cases hx'
    exact hrest
  | wait hf' _ hx' _ =>
    obtain rfl := hf.unique hf'
    rw [hx] at hx'; cases hx'
  | skip hf' _ hx' hok _ _ =>
    obtain rfl := hf.unique hf'
    rw [hx] at hx'; cases hx'
    exact absurd rfl hok

/-- A frame at the front of the buffer is delivered first, and the scan goes on behind it (R229, R239). -/
theorem scans_front_iff {p : Params} {f g kept : List Byte} {ph : Phase} {out : List Frame} {fr : Frame}
    (hf : wellFormedFrame f = true) (hfr : fr.DecodedFrom p f) :
    Scans p (f ++ g) 0 [] kept ph out ↔ Scans p (f ++ g) f.length [fr] kept ph out := by
  obtain ⟨⟨d, hx⟩, hlen⟩ := extract_decodedFrom hf hfr g
  have h16 := wellFormedFrame_length hf
  have hfirst : FirstMark (f ++ g) 0 0 := by
    refine ⟨le_rfl, ?_, fun j _ hj => absurd hj (Nat.not_lt_zero j)⟩
    rw [markerAt_append_left (by omega)]
    exact wellFormedFrame_markerAt hf
  have h := scans_accept_iff (newq := []) (kept := kept) (ph := ph) (out := out) hfirst
    (by rw [List.length_append]; omega) hx
  rwa [hlen, Nat.zero_add] at h

/-- A frame alone in the buffer yields its Frame and leaves no byte (R239). -/
theorem scans_whole {p : Params} {f : List Byte} {fr : Frame} (hf : wellFormedFrame f = true) (hfr : fr.DecodedFrom p f) :
    Scans p f 0 [] [] .drained [fr] := by
  have hbehind : Scans p (f ++ []) f.length [fr] [] .drained [fr] := .drained fun j hj =>
    markerAt_beyond (by rw [List.append_nil]; omega)
  have h := (scans_front_iff hf hfr).mpr hbehind
  rwa [List.append_nil] at h

/-- FEED of a frame alone, all of it now there, yields its Frame and leaves no byte (R239). -/
theorem exec_feed_whole {c f : List Byte} {s : State} {fr : Frame} (hf : wellFormedFrame f = true)
    (hfr : fr.DecodedFrom (Config.params s.fw) f) (hjoined : s.joined c = f) :
    exec (.feed c) s = .next (feedResult s [] .drained [fr]) :=
  exec_feed_of_scans (hjoined.symm ▸ scans_whole hf hfr)

theorem feedResult_q (s : State) (kept : List Byte) (ph : Phase) (newq : List Frame) :
    (feedResult s kept ph newq).q = (if s.mode = 1 then s.q else []) ++ newq := by
  unfold feedResult
  split <;> rfl

/-- Settles O41: by `exec_feed_whole`. -/
theorem wholeFrameRoundTrip : Obligations.WholeFrameRoundTrip := by
  intro f s hf hfresh
  obtain ⟨fr, hfr⟩ := exists_decodedFrom hf (Config.params s.fw)
  refine ⟨fr, ?state, hfr, ?result⟩
  case state =>
    rw [exec_feed_whole hf hfr (joined_of_fresh hfresh f), ← feedResult_q s [] .drained [fr]]
    rfl
  case result =>
    obtain ⟨-, -, -, hresult⟩ := hfr
    rw [hresult]
    rfl

/-- Settles O42: the builder builds well-formed frames, which are delivered whole, and their fields are read back. -/
theorem builtFrameIsDelivered : Obligations.BuiltFrameIsDelivered := by
  intro num rev len tow wnc body s hbody hlen hfresh
  have hbuilt : buildFrame num rev tow wnc body =
      frameBytes (crc16 (frameRest num rev len tow wnc body)) num rev len tow wnc body := by
    have : frameLength body = len := BitVec.eq_of_toNat_eq (by
      rw [frameLength, BitVec.toNat_ofNat, Config.minFrame, ← hlen, Nat.mod_eq_of_lt len.isLt])
    rw [buildFrame, this]
  have hf : wellFormedFrame (buildFrame num rev tow wnc body) = true :=
    hbuilt ▸ wellFormedFrame_frameBytes hlen (by omega)
  obtain ⟨fr, hfr⟩ := exists_decodedFrom hf (Config.params s.fw)
  have hfeed := exec_feed_whole hf hfr (joined_of_fresh hfresh _)
  obtain ⟨hraw, hheader, htime, -⟩ := hfr
  rw [hbuilt, readHeader_frameBytes, Option.some.injEq] at hheader
  rw [hbuilt, timeDecode, readTime_frameBytes, Option.map_some, Option.some.injEq] at htime
  refine ⟨feedResult s [] .drained [fr], fr, ?frame, hfeed, feedResult_q s [] .drained [fr], rfl, hraw, ?_⟩
  case frame => rw [hbuilt] at hfeed; exact hfeed
  rw [← hheader, ← htime]
  exact ⟨rfl, rfl, rfl, rfl, rfl⟩

/-- Settles O46: the front frame comes first (`scans_front_iff`), and the others stand behind its bytes (`Scans.spans`). -/
theorem resynchronisationBehindAFrame : Obligations.ResynchronisationBehindAFrame := by
  intro f g s hf hfresh
  obtain ⟨fr, hfr⟩ := exists_decodedFrom hf (Config.params s.fw)
  obtain ⟨kept, ph, newq, hscans, hfeed⟩ := exec_feed_scans (f ++ g) s
  rw [joined_of_fresh hfresh, scans_front_iff hf hfr] at hscans
  obtain ⟨spans, rfl, hspans, -⟩ := hscans.spans
  refine ⟨_, fr, spans.map Prod.snd, hfeed, feedResult_q s _ _ _, hfr, fun fr' hfr' => ?_⟩
  obtain ⟨af, haf, rfl⟩ := List.mem_map.mp hfr'
  obtain ⟨hpivot, hwf, hraw, hinside, -⟩ := hspans af haf
  obtain ⟨k, hk⟩ := Nat.exists_eq_add_of_le hpivot
  rw [hk, List.drop_length_add_append] at hraw
  rw [hk, List.length_append] at hinside
  exact ⟨k, hraw, by omega, hwf⟩

/-! ### A frame in two parts -/

/-- The first bytes of a frame, short of all of it, are retained when the marker is whole and alone in them (R238, R239). -/
theorem retained_take {f : List Byte} {k : Nat} (hf : wellFormedFrame f = true) (h2 : 2 ≤ k) (hk : k < f.length)
    (hinner : NoInnerMarker f k) : Retained (f.take k) := by
  obtain ⟨h, hr, -, -, hlen, -⟩ := wellFormedFrame_iff.mp hf
  have htake : (f.take k).length = k := List.length_take_of_le hk.le
  have hmark : markerAt (f.take k) 0 = true := by
    rw [← markerAt_append_left (c := f.drop k) (by omega), List.take_append_drop]
    exact wellFormedFrame_markerAt hf
  refine ⟨⟨hmark, fun j hj => Bool.eq_false_iff.mpr fun hj' => absurd (hinner j hj') (by omega)⟩, ?_⟩
  · rcases Nat.lt_or_ge k 14 with hshort | hlong
    · exact .inl (by omega)
    · exact .inr ⟨by omega, h, (readHeader_take (by omega)).trans hr, by omega⟩

/-- FEED of the first part of a frame retains it (R239). -/
theorem exec_feed_take {f : List Byte} {k : Nat} {s : State} (hf : wellFormedFrame f = true) (hmode : s.mode = 1)
    (hbuf : s.buf = []) (h2 : 2 ≤ k) (hk : k < f.length) (hlimit : k ≤ s.limit.toNat) (hinner : NoInnerMarker f k) :
    exec (.feed (f.take k)) s = .next { s with
      buf := f.take k, phase := .missingBytes, scan := none, dp := Datapath.empty, resp := some .ok } := by
  have hscans := (retained_take hf h2 hk hinner).scans (Config.params s.fw)
  rw [← joined_of_fresh (.inl hbuf) (f.take k)] at hscans
  rw [exec_feed_of_scans hscans, feedResult_no_frame hmode, joined_of_fresh (.inl hbuf),
    lastBytes_of_le (by rw [List.length_take]; omega)]

/-- FEED of at most one byte to an empty buffer leaves nothing (R239). -/
theorem exec_feed_le_one {c : List Byte} {s : State} (hmode : s.mode = 1) (hbuf : s.buf = []) (hc : c.length ≤ 1) :
    exec (.feed c) s = .next { s with
      buf := [], phase := .drained, scan := none, dp := Datapath.empty, resp := some .ok } := by
  have hnone (i : Nat) : markerAt (s.joined c) i = false := by
    rw [joined_of_fresh (.inl hbuf)]; exact markerAt_of_length_le_one hc i
  rw [exec_feed_of_scans (scans_of_no_marker hnone), feedResult_no_frame hmode]
  rfl

/-- Settles O43: by `exec_feed_take` and `exec_feed_le_one`. -/
theorem partialFrameIsRetained : Obligations.PartialFrameIsRetained := fun f k _ hf hmode hbuf =>
  ⟨fun h2 hk hlimit hinner => exec_feed_take hf hmode hbuf h2 hk hlimit hinner,
    fun hk => exec_feed_le_one hmode hbuf (by rw [List.length_take]; omega)⟩

/-- Behind its front a frame that nests no frame holds none (R239). -/
theorem frameFree_drop {f : List Byte} {k : Nat} (hnests : NestsNoFrame f) (hk0 : 0 < k) (hk : k ≤ f.length) :
    FrameFree (f.drop k) := by
  intro a n han
  rw [List.length_drop] at han
  rw [List.drop_drop]
  exact hnests (k + a) n (by omega) (by omega)

/-- The only well-formed frame at the front of a frame is the whole of it: its length is in its header (R101). -/
theorem wellFormedFrame_take {f : List Byte} {n : Nat} (hf : wellFormedFrame f = true)
    (hn : wellFormedFrame (f.take n) = true) : f.length ≤ n := by
  obtain ⟨h, hr, -, -, hlen, -⟩ := wellFormedFrame_iff.mp hf
  obtain ⟨h', hr', h16, -, hlen', -⟩ := wellFormedFrame_iff.mp hn
  rw [List.length_take] at h16 hlen'
  rw [readHeader_take (by omega), hr] at hr'
  cases hr'
  omega

/-- Short of its end a frame that nests no frame holds none (R239). -/
theorem frameFree_take {f : List Byte} {k : Nat} (hf : wellFormedFrame f = true) (hnests : NestsNoFrame f)
    (hk : k < f.length) : FrameFree (f.take k) := by
  intro a n han
  rw [List.length_take] at han
  have hcut : ((f.take k).drop a).take n = (f.drop a).take n := by
    rw [List.drop_take, List.take_take, Nat.min_eq_left (by omega)]
  rw [hcut]
  rcases Nat.eq_zero_or_pos a with rfl | ha
  · refine Bool.eq_false_iff.mpr fun hn => ?_
    have := wellFormedFrame_take (n := n) hf hn
    omega
  · exact hnests a n ha (by omega)

/-- In replace mode a FEED of bytes in which no well-formed frame stands leaves an empty queue (R232). -/
theorem exec_feed_replace_frameFree {c : List Byte} {s t : State} (hmode : s.mode = 0) (hc : FrameFree c)
    (ht : exec (.feed c) s = .next t) : t.q = [] ∧ t.mode = 0 := by
  obtain ⟨kept, ph, newq, hscans, rfl⟩ := scans_of_exec_feed ht
  rw [joined_of_fresh (.inr hmode)] at hscans
  obtain rfl := hscans.frameFree hc
  exact ⟨by rw [feedResult_q, hmode]; rfl, hmode⟩

/-- Settles O45: neither part holds a well-formed frame, and each is scanned alone. -/
theorem replaceModeNeverReassembles : Obligations.ReplaceModeNeverReassembles := by
  intro f k s t u hf hmode hk0 hk hnests ht hu
  obtain ⟨htq, htmode⟩ := exec_feed_replace_frameFree hmode (frameFree_take hf hnests hk) ht
  exact ⟨htq, (exec_feed_replace_frameFree htmode (frameFree_drop hnests hk0 hk.le) hu).1⟩

/-- What is left of a frame behind its first byte yields shorter frames only, and none if it nests none (R239). -/
theorem scans_drop_one {p : Params} {f kept : List Byte} {ph : Phase} {out : List Frame} (hf : wellFormedFrame f = true)
    (h : Scans p (f.drop 1) 0 [] kept ph out) :
    (∀ g ∈ out, g.raw.length < f.length) ∧ (NestsNoFrame f → out = []) := by
  have h16 := wellFormedFrame_length hf
  refine ⟨fun g hg => ?_, fun hnests => h.frameFree (frameFree_drop hnests Nat.one_pos (by omega))⟩
  obtain ⟨spans, rfl, hspans, -⟩ := h.spans
  rw [List.nil_append] at hg
  obtain ⟨af, haf, rfl⟩ := List.mem_map.mp hg
  have := (hspans af haf).inside
  rw [List.length_drop] at this
  omega

/-- FEED of the rest of a frame, its first part retained, delivers it (R239). -/
theorem exec_feed_rest {f : List Byte} {k : Nat} {t : State} {fr : Frame} (hf : wellFormedFrame f = true)
    (hfr : fr.DecodedFrom (Config.params t.fw) f) (hmode : t.mode = 1) (hbuf : t.buf = f.take k) :
    exec (.feed (f.drop k)) t = .next (feedResult t [] .drained [fr]) :=
  exec_feed_whole hf hfr (by rw [joined_accumulate hmode, hbuf, List.take_append_drop])

/-- FEED of a frame but for its first byte, to an empty buffer (R239). -/
theorem exec_feed_drop_one {f : List Byte} {t u : State} (hf : wellFormedFrame f = true) (hmode : t.mode = 1)
    (hbuf : t.buf = []) (hu : exec (.feed (f.drop 1)) t = .next u) :
    (∃ more, u.q = t.q ++ more ∧ ∀ g ∈ more, g.raw.length < f.length) ∧ (NestsNoFrame f → u.q = t.q) := by
  obtain ⟨kept, ph, newq, hscans, rfl⟩ := scans_of_exec_feed hu
  rw [joined_of_fresh (.inl hbuf)] at hscans
  obtain ⟨hshorter, hnone⟩ := scans_drop_one hf hscans
  have hq : (feedResult t kept ph newq).q = t.q ++ newq := (feedResult_q t kept ph newq).trans (by rw [if_pos hmode])
  exact ⟨⟨newq, hq, hshorter⟩, fun hnests => by rw [hq, hnone hnests, List.append_nil]⟩

/-- Settles O44: with its first part retained, or nothing fed yet, the rest is `exec_feed_rest`; fed whole, the frame is
`exec_feed_whole` and nothing is left; without its first byte, the rest is `exec_feed_drop_one`. -/
theorem splitFrameIsReassembled : Obligations.SplitFrameIsReassembled := by
  intro f k s hf hmode hbuf hkle
  obtain ⟨fr, hfr⟩ := exists_decodedFrom hf (Config.params s.fw)
  obtain ⟨t, ht⟩ := exec_host_completes (i := .feed (f.take k)) nofun s
  obtain ⟨u, hu⟩ := exec_host_completes (i := .feed (f.drop k)) nofun t
  have hqueue (v : State) (hv : v.mode = 1) : (feedResult v [] .drained [fr]).q = v.q ++ [fr] :=
    (feedResult_q v [] .drained [fr]).trans (by rw [if_pos hv])
  refine ⟨t, u, fr, ht, hu, hfr, fun hk => ?reassembled, fun hk => ?whole, fun hk => ?lost⟩
  case reassembled =>
    obtain ⟨ph, hfirst⟩ : ∃ ph, exec (.feed (f.take k)) s = .next { s with
        buf := f.take k, phase := ph, scan := none, dp := Datapath.empty, resp := some .ok } := by
      rcases hk with rfl | ⟨h2, hk, hlimit, hinner⟩
      · exact ⟨_, exec_feed_le_one hmode hbuf (Nat.zero_le 1)⟩
      · exact ⟨_, exec_feed_take hf hmode hbuf h2 hk hlimit hinner⟩
    obtain ⟨htbuf, htq, htmode, htfw⟩ : t.buf = f.take k ∧ t.q = s.q ∧ t.mode = 1 ∧ t.fw = s.fw := by
      obtain rfl := Host.Outcome.next.inj (hfirst.symm.trans ht)
      exact ⟨rfl, rfl, hmode, rfl⟩
    obtain rfl := Host.Outcome.next.inj ((exec_feed_rest hf (htfw.symm ▸ hfr) htmode htbuf).symm.trans hu)
    exact ⟨htq, htq ▸ hqueue t htmode, rfl⟩
  case whole =>
    rw [hk, List.take_length] at ht
    rw [hk, List.drop_length] at hu
    obtain rfl := Host.Outcome.next.inj ((exec_feed_whole hf hfr (joined_of_fresh (.inl hbuf) f)).symm.trans ht)
    have hnothing := exec_feed_le_one (c := []) (s := feedResult s [] .drained [fr]) hmode rfl (Nat.zero_le 1)
    obtain rfl := Host.Outcome.next.inj (hnothing.symm.trans hu)
    exact ⟨hqueue s hmode, rfl, hqueue s hmode, rfl⟩
  case lost =>
    subst hk
    obtain ⟨htbuf, htq, htmode⟩ : t.buf = [] ∧ t.q = s.q ∧ t.mode = 1 := by
      have hfirst := exec_feed_le_one hmode hbuf (List.length_take_le 1 f)
      obtain rfl := Host.Outcome.next.inj (hfirst.symm.trans ht)
      exact ⟨rfl, rfl, hmode⟩
    rw [← htq]
    exact ⟨rfl, htbuf, exec_feed_drop_one hf htmode htbuf hu⟩

/-! ### How long the scan runs -/

/-- Two markers never stand at neighbouring offsets (R91). -/
theorem markerAt_succ {b : List Byte} {i : Nat} (h : markerAt b i = true) : markerAt b (i + 1) = false := by
  refine Bool.eq_false_iff.mpr fun hnext => ?_
  obtain ⟨-, hsync1⟩ := markerAt_iff.mp h
  obtain ⟨hsync0, -⟩ := markerAt_iff.mp hnext
  rw [hsync1] at hsync0
  exact absurd hsync0 (by decide)

/-- Every marker from `PIVOT` on is within reach of `n` passes, two bytes each (R236). -/
def PassesLeft (b : List Byte) (n pivot : Nat) : Prop := ∀ j, pivot ≤ j → markerAt b j = true → b.length < j + 2 + 2 * n

/-- A pass that goes on leaves the marker it stood at behind, and that takes two bytes (R229, R231, R236). -/
theorem PassesLeft.step {p : Params} {b : List Byte} {n : Nat} {r r' : ScanRegs} (h : PassesLeft b (n + 1) r.pivot)
    (hs : scanPass p b r = some (.again r')) : PassesLeft b n r'.pivot := by
  have hbeyond : ∃ i, r.pivot ≤ i ∧ markerAt b i = true ∧ i < r'.pivot := by
    rcases scanPass_cases hs with ⟨_, ho⟩ | ⟨i, hf, ⟨_, m, _, ho⟩ | ⟨_, f, d, hx, ho⟩ | ⟨_, _, _, ho⟩ | ⟨_, _, ho⟩⟩
    · cases ho
    · cases ho
    · cases ho
      obtain ⟨hle, hmark, -⟩ := findMark_eq_some.mp hf
      obtain ⟨-, -, -, h16, -⟩ := extract_ok hx (by rw [markerAt_drop]; exact hmark)
      exact ⟨i, hle, hmark, by simp only [ScanRegs.accept]; omega⟩
    · cases ho
    · cases ho
      obtain ⟨hle, hmark, -⟩ := findMark_eq_some.mp hf
      exact ⟨i, hle, hmark, Nat.lt_succ_self i⟩
  obtain ⟨i, hle, hmark, hlt⟩ := hbeyond
  intro j hj hmarkj
  have hnext : j ≠ i + 1 := by
    rintro rfl
    rw [markerAt_succ hmark] at hmarkj
    cases hmarkj
  have := h i hle hmark
  omega

/-- With passes enough for the markers left, more change nothing (R236). -/
theorem scanLoop_passesLeft {p : Params} {b : List Byte} {n : Nat} {r : ScanRegs} (h : PassesLeft b n r.pivot) (k : Nat) :
    scanLoop p b (n + k) r = scanLoop p b n r := by
  induction n generalizing r with
  | zero =>
    have hnone : findMark b r.pivot = none := findMark_eq_none.mpr fun j hj =>
      Bool.eq_false_iff.mpr fun hmark => absurd (markerAt_lt hmark) (Nat.not_lt.mpr (Nat.le_of_lt_succ (h j hj hmark)))
    cases k with
    | zero => rfl
    | succ k => simp only [scanLoop, scanPass_drained hnone]
  | succ n ih =>
    rw [Nat.succ_add, scanLoop, scanLoop]
    split
    · rfl
    · rfl
    · exact ih (h.step ‹_›)

/-- Settles O49: half the bytes of the buffer are passes enough from its start. -/
theorem scanEndsInHalfTheBytes : Obligations.ScanEndsInHalfTheBytes := by
  intro p b k
  have hstart : PassesLeft b (b.length / 2) (ScanRegs.start (lastMark b)).pivot := fun j _ _ => by omega
  obtain ⟨e, he⟩ := scanLoop_isSome p b (b.length / 2) (r := ScanRegs.start (lastMark b)) rfl
  exact ⟨e, (scanLoop_passesLeft hstart k).trans he, he⟩

end Sys2Proof.Machine
end

section
/-! SUPPORT. What an operation may write (R23 to R25, R29, R40, R68, R69, R171), and the invariant between operations (R35,
R238): every operation that a transaction carries keeps it. -/

namespace Sys2Proof.Machine

/-! ### Internal operations -/

/-- `t` is `s` but for the datapath registers and the result latch, which holds a result (R171). -/
def WritesDatapath (s t : State) : Prop := t = { s with dp := t.dp, out := t.out } ∧ t.out.isSome = true

/-- `t` is `s` but for the result latch, which holds a result. -/
def WritesLatch (s t : State) : Prop := WritesDatapath s t ∧ t.dp = s.dp

theorem writesDatapath_produce (s : State) (d : Datapath) (r : Result) :
    WritesDatapath s ((s.setDatapath d).produce r) := ⟨rfl, rfl⟩

theorem writesLatch_of_next {r : Result} {s t : State}
    (h : (.next (s.produce r) : Host.Outcome State Fault Refusal) = .next t) : WritesLatch s t := by
  cases h
  exact ⟨⟨rfl, rfl⟩, rfl⟩

/-- An operation with a contract writes the latch or is refused (R66). -/
theorem writesLatch_of_yieldOr {why : Refusal} {v : Option Result} {s t : State} (h : yieldOr why v s = .next t) :
    WritesLatch s t := by
  obtain ⟨r, -, rfl⟩ := yieldOr_next h
  exact ⟨⟨rfl, rfl⟩, rfl⟩

theorem execHdrDecode_writes {b : List Byte} {s t : State} (h : execHdrDecode b s = .next t) : WritesDatapath s t := by
  unfold execHdrDecode at h
  split at h
  · cases h; exact writesDatapath_produce s _ _
  · cases h

theorem execTimeDecode_writes {f : List Byte} {s t : State} (h : execTimeDecode f s = .next t) : WritesDatapath s t := by
  unfold execTimeDecode at h
  split at h
  · cases h; exact writesDatapath_produce s _ _
  · cases h

theorem execExtract_writes {b : List Byte} {s t : State} (h : execExtract b s = .next t) : WritesDatapath s t := by
  unfold execExtract at h
  split at h
  · cases h; exact writesDatapath_produce s _ _
  · cases h

/-- The operations that write datapath registers (R29). -/
def LoadsDatapath (i : Instr) : Prop := ∃ b, i = .crc16 b ∨ i = .hdrDecode b ∨ i = .timeDecode b ∨ i = .extract b

/-- An internal operation writes the latch alone, unless it is one of the four that write datapath registers too. -/
theorem exec_internal_writes {i : Instr} {s t : State} (hi : i.format = .internal) (ht : exec i s = .next t) :
    (WritesDatapath s t ∧ LoadsDatapath i) ∨ WritesLatch s t := by
  cases i with
  | crc16 b => cases ht; exact .inl ⟨writesDatapath_produce s _ _, b, .inl rfl⟩
  | hdrDecode b => exact .inl ⟨execHdrDecode_writes ht, b, .inr (.inl rfl)⟩
  | timeDecode f => exact .inl ⟨execTimeDecode_writes ht, f, .inr (.inr (.inl rfl))⟩
  | extract b => exact .inl ⟨execExtract_writes ht, b, .inr (.inr (.inr rfl))⟩
  | sentN | regDecode | find | lastmark | decodeLayout => exact .inr (writesLatch_of_next ht)
  | fldU8 | fldU16 | fldU32 | fldI8 | fldI16 | fldI32 | fldF32 | fldF64 | fldBits | fldPad =>
    exact .inr (writesLatch_of_yieldOr ht)
  | _ => cases hi

theorem exec_internal_writesDatapath {i : Instr} {s t : State} (hi : i.format = .internal) (ht : exec i s = .next t) :
    WritesDatapath s t :=
  (exec_internal_writes hi ht).elim And.left And.left

/-- Settles O12: by `exec_internal_writes`. -/
theorem internalOperationsWriteNoState : Obligations.InternalOperationsWriteNoState := by
  intro i s t hi ht
  obtain ⟨hframe, hout⟩ := exec_internal_writesDatapath hi ht
  refine ⟨hframe, hout, fun hne => ?_⟩
  rcases exec_internal_writes hi ht with ⟨-, b, hloads⟩ | ⟨-, hdp⟩
  · obtain ⟨hcrc, hhdr, htime, hextract⟩ := hne b
    exact absurd hloads (by simp only [hcrc, hhdr, htime, hextract, or_self, not_false_eq_true])
  · exact hdp

/-! ### Configuration and storage -/

/-- What the setters of `LIMIT` and `FW` write, accepted or not (R263, R264). -/
theorem execSetLimit_writes {n : U16} {s t : State} (h : execSetLimit n s = .next t) :
    t = { s with limit := t.limit, resp := t.resp } := by
  by_cases hn : n.toNat = 0
  · cases (execSetLimit_zero hn s).symm.trans h; rfl
  · cases (execSetLimit_pos hn s).symm.trans h; rfl

theorem execSetFw_writes {k : Nat} {s t : State} (h : execSetFw k s = .next t) :
    t = { s with fw := t.fw, resp := t.resp } := by
  unfold execSetFw writeFw at h
  split at h <;> cases h <;> rfl

/-- Settles O10: a FEED keeps the configuration, as O36 says; an internal operation writes none of the state; and each
setter writes its own register. -/
theorem onlySettersWriteConfiguration : Obligations.OnlySettersWriteConfiguration := by
  intro i s t ht hreset
  have hkeeps (h : t.mode = s.mode ∧ t.limit = s.limit ∧ t.fw = s.fw) :
      ((∀ m, i ≠ .setMode m) → i ≠ .setModeAcc → i ≠ .setModeRep → t.mode = s.mode) ∧
      ((∀ n, i ≠ .setLimit n) → t.limit = s.limit) ∧ ((∀ k, i ≠ .setFw k) → t.fw = s.fw) :=
    ⟨fun _ _ _ => h.1, fun _ => h.2.1, fun _ => h.2.2⟩
  cases hfed : fedChunk i with
  | some c =>
    obtain ⟨t', ht', -, -, -, hlimit, hmode, hfw, -⟩ := feedsAlwaysComplete i c s hfed
    obtain rfl := Host.Outcome.next.inj (ht'.symm.trans ht)
    exact hkeeps ⟨hmode, hlimit, hfw⟩
  | none =>
    by_cases hi : i.format = .internal
    · obtain ⟨hframe, -⟩ := exec_internal_writesDatapath hi ht
      exact hkeeps (by rw [hframe]; exact ⟨rfl, rfl, rfl⟩)
    cases i with
    | setMode m => cases ht; exact ⟨fun hne => absurd rfl (hne m), fun _ => rfl, fun _ => rfl⟩
    | setModeAcc => cases ht; exact ⟨fun _ hne => absurd rfl hne, fun _ => rfl, fun _ => rfl⟩
    | setModeRep => cases ht; exact ⟨fun _ _ hne => absurd rfl hne, fun _ => rfl, fun _ => rfl⟩
    | setLimit n =>
      rw [execSetLimit_writes ht]
      exact ⟨fun _ _ _ => rfl, fun hne => absurd rfl (hne n), fun _ => rfl⟩
    | setFw k =>
      rw [execSetFw_writes ht]
      exact ⟨fun _ _ _ => rfl, fun _ => rfl, fun hne => absurd rfl (hne k)⟩
    | reset => exact absurd rfl hreset
    | drain | flush | getMode | getLimit | getFw | getBuf | getStatus => cases ht; exact hkeeps ⟨rfl, rfl, rfl⟩
    | reserved0 | reservedB | reservedC | reservedD | reservedE | reservedHi => cases ht; exact hkeeps ⟨rfl, rfl, rfl⟩
    | feed | parse | frame | feedb => cases hfed
    | _ => exact absurd rfl hi

/-- Settles O11, operation by operation: the frame of each that is neither a FEED nor RESET. -/
theorem onlyFeedAndResetWriteStorage : Obligations.OnlyFeedAndResetWriteStorage := by
  intro i s t ht hreset hfed
  by_cases hi : i.format = .internal
  · obtain ⟨hframe, -⟩ := exec_internal_writesDatapath hi ht
    rw [hframe]
    exact ⟨fun _ => rfl, rfl, rfl, fun _ _ => rfl⟩
  cases i with
  | drain => cases ht; exact ⟨fun _ => rfl, rfl, rfl, fun hne => absurd rfl hne⟩
  | flush => cases ht; exact ⟨fun _ => rfl, rfl, rfl, fun _ hne => absurd rfl hne⟩
  | setLimit n => rw [execSetLimit_writes ht]; exact ⟨fun _ => rfl, rfl, rfl, fun _ _ => rfl⟩
  | setFw k => rw [execSetFw_writes ht]; exact ⟨fun _ => rfl, rfl, rfl, fun _ _ => rfl⟩
  | setMode | setModeAcc | setModeRep => cases ht; exact ⟨fun _ => rfl, rfl, rfl, fun _ _ => rfl⟩
  | getMode | getLimit | getFw | getBuf | getStatus => cases ht; exact ⟨fun _ => rfl, rfl, rfl, fun _ _ => rfl⟩
  | reserved0 | reservedB | reservedC | reservedD | reservedE | reservedHi =>
    cases ht; exact ⟨fun _ => rfl, rfl, rfl, fun _ _ => rfl⟩
  | reset => exact absurd rfl hreset
  | feed | parse | frame | feedb => cases hfed
  | _ => exact absurd rfl hi

/-! ### Registers and codes -/

theorem qNonempty_iff {s : State} : s.qNonempty = true ↔ s.q ≠ [] := by
  rw [State.qNonempty, decide_eq_true_eq, ne_eq, List.length_eq_zero_iff]

/-- DRAIN, what expands to it, and RESET leave no frame queued (R261, R270, R110). -/
theorem queue_empty_after {i : Instr} {c : List Byte} {s t : State} (hi : i ∈ [Instr.drain, .flush, .parse c, .reset])
    (ht : exec i s = .next t) : t.q = [] := by
  simp only [List.mem_cons, List.not_mem_nil, or_false] at hi
  rcases hi with rfl | rfl | rfl | rfl
  · cases ht; rfl
  · cases ht; rfl
  · obtain ⟨_, _, _, -, hfeed⟩ := feed_run c s
    obtain rfl := Host.Outcome.next.inj ((execParse_of_feed hfeed).symm.trans ht)
    rfl
  · cases ht; rfl

/-- Settles O14: the registers and the codes by their tables, `Q_NONEMPTY` by `qNonempty_iff`. -/
theorem controlRegistersReadTheState : Obligations.ControlRegistersReadTheState := by
  refine ⟨fun s => ⟨rfl, rfl, rfl, rfl, rfl, rfl, qNonempty_iff⟩, ⟨rfl, rfl, rfl, rfl, rfl, rfl, fun r => ?writable⟩,
    ⟨rfl, rfl, rfl, rfl⟩, ⟨rfl, rfl, rfl, rfl⟩, ⟨rfl, rfl, rfl, rfl, fun r => ⟨?error, ?other⟩⟩, fun c s t i hi ht => ?queue⟩
  case writable => cases r <;> decide
  case error => rintro e rfl; rfl
  case other =>
    intro hne
    cases r with
    | error e => exact absurd rfl (hne e)
    | _ => rfl
  case queue =>
    rw [← Bool.not_eq_true, qNonempty_iff, not_not]
    exact queue_empty_after hi ht

/-- Settles O58: by `resetBlock_eq`. -/
theorem resetLeavesThePort : Obligations.ResetLeavesThePort := fun s =>
  ⟨congrArg Host.Outcome.next (resetBlock_eq Config.block s), resetBlock Config.block s, rfl, rfl, rfl⟩

/-! ### The invariant between operations -/

theorem markerAt_nil (i : Nat) : markerAt [] i = false := markerAt_beyond (Nat.zero_le (i + 1))

/-- Settles O56: after reset there is nothing in `BUF` or the queue. -/
theorem resetMeetsTheInvariant : Obligations.ResetMeetsTheInvariant where
  limit_pos := by decide
  fw_known := fwKnown_reset
  not_scanning := nofun
  scan_none := rfl
  dp_empty := rfl
  marker_front i hi := absurd ((markerAt_nil i).symm.trans hi) (by decide)
  buf_empty _ := rfl
  buf_bound := Nat.zero_le _
  queue_valid := nofun

section
variable {s : State} (h : s.Inv)
include h

/-- Neither the port nor the response is in the invariant. -/
theorem State.Inv.setPort (ts : List Transaction) : (s.setPort ts).Inv := { h with }

theorem State.Inv.respond (r : Response) : (s.respond r).Inv := { h with }

theorem State.Inv.drain : (drain s).Inv := { h with queue_valid := nofun }

theorem State.Inv.writeMode (m : BitVec 1) : (writeMode m s).Inv := { h with }

theorem State.Inv.writeLimit (b : BlockParams) (n : U16) : (writeLimit b n s).Inv := by
  unfold Machine.writeLimit
  split
  · rename_i hn
    obtain ⟨h0, -⟩ := limitLegal_iff.mp hn
    exact { h with limit_pos := h0 }
  · exact h.respond _

theorem State.Inv.writeFw (k : Nat) : (writeFw Config.block k s).Inv := by
  unfold Machine.writeFw
  split
  · rename_i hk
    exact { h with fw_known := hk }
  · exact h.respond _

end

/-- RESET leaves the reset state but for the port and the answer. -/
theorem inv_resetBlock (s : State) : (resetBlock Config.block s).Inv := { resetMeetsTheInvariant with }

/-- Every frame of a FEED is a validated one (R35, R101). -/
theorem ScanEnd.valid {k : Nat} {b kept : List Byte} {ph : Phase} {newq : List Frame} (hk : fwKnown k = true)
    (h : ScanEnd (Config.params k) b kept ph newq) : ∀ f ∈ newq, f.Valid := by
  intro f hf
  obtain ⟨hwf, hheader, htime, hresult⟩ := h.frames f hf
  exact ⟨hwf, hheader, htime, k, hk, hresult⟩

/-- What step 5 leaves of the bytes a scan kept begins with its only marker or holds none (R233, R238). -/
theorem Retained.lastBytes_front {kept : List Byte} (h : Retained kept) (n i : Nat)
    (hi : markerAt (lastBytes n kept) i = true) : i = 0 := by
  rcases h.lastBytes_cases n with ⟨-, huncut, -⟩ | ⟨-, hnone⟩
  · by_contra hne
    rw [huncut, h.front.2 i (Nat.pos_of_ne_zero hne)] at hi
    cases hi
  · rw [hnone i] at hi; cases hi

/-- A FEED keeps the invariant: `BUF` by `Scans.kept_cases`, the queue by `ScanEnd.valid` (R35, R238). -/
theorem State.Inv.feedResult {s : State} (h : s.Inv) {b kept : List Byte} {ph : Phase} {newq : List Frame}
    (hscans : Scans (Config.params s.fw) b 0 [] kept ph newq) : (feedResult s kept ph newq).Inv := by
  have hqueue : ∀ f ∈ (Machine.feedResult s kept ph newq).q, f.Valid := by
    intro f hf
    rw [feedResult_q, List.mem_append] at hf
    rcases hf with hold | hnew
    · split at hold
      · exact h.queue_valid f hold
      · cases hold
    · exact (scanEnd_iff_scans.mpr hscans).valid h.fw_known f hnew
  rcases hscans.kept_cases with ⟨rfl, rfl⟩ | ⟨rfl, hkept, -⟩
  · exact { h with
      not_scanning := nofun, scan_none := rfl, dp_empty := rfl
      marker_front := fun i hi => absurd ((markerAt_nil i).symm.trans hi) (by decide)
      buf_empty := fun _ => rfl, buf_bound := Nat.zero_le _, queue_valid := hqueue }
  · exact { h with
      not_scanning := nofun, scan_none := rfl, dp_empty := rfl
      marker_front := hkept.lastBytes_front s.limit.toNat
      buf_empty := fun hph => absurd rfl hph
      buf_bound := ((lastBytes_length _ _).trans_le (Nat.min_le_right _ _)).trans hkept.length_le
      queue_valid := hqueue }

/-- Every host operation keeps the invariant. -/
theorem State.Inv.exec {s t : State} (h : s.Inv) {i : Instr} (hhost : i.format ≠ .internal) (ht : exec i s = .next t) :
    t.Inv := by
  cases hfed : fedChunk i with
  | some c =>
    obtain ⟨kept, ph, newq, hscans, hfeed⟩ := exec_feed_scans c s
    obtain ⟨-, hexec⟩ | rfl := fedChunk_cases hfed
    · obtain rfl := Host.Outcome.next.inj (((hexec s).trans hfeed).symm.trans ht)
      exact h.feedResult hscans
    · obtain rfl := Host.Outcome.next.inj ((execParse_of_feed hfeed).symm.trans ht)
      exact (h.feedResult hscans).drain
  | none =>
    cases i with
    | drain | flush => cases ht; exact h.drain
    | setMode m => cases ht; exact h.writeMode m
    | setModeAcc => cases ht; exact h.writeMode 1
    | setModeRep => cases ht; exact h.writeMode 0
    | setLimit n => cases ht; exact h.writeLimit Config.block n
    | setFw k => cases ht; exact h.writeFw k
    | reset => cases ht; exact inv_resetBlock s
    | getMode | getLimit | getFw | getBuf | getStatus => cases ht; exact h.respond _
    | reserved0 | reservedB | reservedC | reservedD | reservedE | reservedHi => cases ht; exact h.respond _
    | feed | parse | frame | feedb => cases hfed
    | _ => exact absurd rfl hhost

/-- A decoded transaction asks for an operation of the host, if for any. -/
def AsksHost (x : Except DecodeError Instr) : Prop := ∀ i, x = .ok i → i.format ≠ .internal

theorem asksHost_ok {i : Instr} (hi : i.format ≠ .internal) : AsksHost (.ok i) := by
  rintro _ ⟨⟩
  exact hi

theorem asksHost_bare {i : Instr} {ops : List Byte} (hi : i.format ≠ .internal) : AsksHost (bare i ops) := by
  cases ops with
  | nil => exact asksHost_ok hi
  | cons _ _ => nofun

theorem asksHost_decodeSetMode (ops : List Byte) : AsksHost (decodeSetMode ops) := by
  unfold decodeSetMode
  split
  · exact asksHost_ok nofun
  · nofun

theorem asksHost_decodeSetLimit (ops : List Byte) : AsksHost (decodeSetLimit ops) := by
  unfold decodeSetLimit
  split
  · exact asksHost_ok nofun
  · nofun

theorem asksHost_decodeSetFw (n : Nat) (ops : List Byte) : AsksHost (decodeSetFw n ops) := by
  unfold decodeSetFw
  split
  · exact asksHost_ok nofun
  · nofun

/-- No command word asks for an internal operation (R107, R108). -/
theorem asksHost_decodeWord (w : Byte) (ops : List Byte) : AsksHost (decodeWord w ops) := by
  unfold decodeWord
  split
  · exact asksHost_ok nofun
  · split
    case h_3 => exact asksHost_decodeSetMode ops
    case h_4 => exact asksHost_decodeSetLimit ops
    case h_5 => exact asksHost_decodeSetFw fwBytes ops
    case h_2 | h_6 | h_7 | h_8 | h_9 | h_10 | h_15 => exact asksHost_bare (by decide)
    case h_1 | h_11 | h_12 | h_13 | h_14 | h_16 => exact asksHost_ok nofun

/-- No transaction carries an internal operation (R107, R273). -/
theorem asksHost_decode (x : Transaction) : AsksHost (decode x) := by
  cases x with
  | command bytes =>
    cases bytes with
    | nil => nofun
    | cons w ops => exact asksHost_decodeWord w ops
  | stream chunk =>
    refine asksHost_ok ?_
    obtain hfeed | ⟨_, _, _, _, _, _, _, hframe, -⟩ := decodeStream_cases chunk
    · rw [hfeed]; nofun
    · rw [hframe]; nofun
  | resetInput => exact asksHost_ok nofun

/-- Settles O55: with nothing at the port the state is held; otherwise a transaction carries a host operation, and
`State.Inv.exec` is that operation's. -/
theorem stepKeepsTheInvariant : Obligations.StepKeepsTheInvariant := by
  intro s t hinv ht
  obtain ⟨hruns, hrefused, hidle⟩ := stepRunsTheDecodedOperation s
  cases hport : s.port with
  | nil =>
    rw [hidle hport] at ht
    cases ht; exact hinv
  | cons x rest =>
    cases hx : decode x with
    | ok i =>
      rw [hruns x rest i hport hx] at ht
      exact (hinv.setPort rest).exec (asksHost_decode x i hx) ht
    | error e =>
      rw [hrefused x rest e hport hx] at ht
      cases ht

end Sys2Proof.Machine
end

section
/-! SUPPORT. The marker searches over `BUF` (R223, R224) and `BUF` as cells (R60). -/

namespace Sys2Proof.Machine

/-- A marker in `BUF` is its two bytes (R91, R223). -/
theorem markerAt_buf_iff {s : State} {i : Nat} :
    markerAt s.buf i = true ↔ s.readByte i = some 0x24 ∧ s.readByte (i + 1) = some 0x40 := markerAt_iff

theorem markerAt_buf_false_iff {s : State} {i : Nat} :
    markerAt s.buf i = false ↔ ¬(s.readByte i = some 0x24 ∧ s.readByte (i + 1) = some 0x40) := by
  rw [← markerAt_buf_iff, Bool.not_eq_true]

/-- Settles O33: by `findMark_eq_some` and `findMark_eq_none`, in the bytes of `BUF`. -/
theorem findIsTheLeastMarker : Obligations.FindIsTheLeastMarker := by
  intro p s
  refine ⟨findMark s.buf p, rfl, fun i => ?least, ?none, fun hend => ?beyond⟩
  case least => simp only [findMark_eq_some, markerAt_buf_false_iff, markerAt_buf_iff, and_assoc]
  case none => simp only [findMark_eq_none, markerAt_buf_false_iff]
  case beyond => exact findMark_eq_none.mpr fun j hj => markerAt_beyond (by omega)

/-- Settles O34: by `lastMark_eq_some`; neither search answers exactly where there is no marker. -/
theorem lastmarkIsTheGreatestMarker : Obligations.LastmarkIsTheGreatestMarker := by
  intro s
  refine ⟨lastMark s.buf, rfl, fun i => ?greatest, ?none⟩
  case greatest => simp only [lastMark_eq_some, markerAt_buf_false_iff, markerAt_buf_iff, and_assoc]
  case none =>
    have hfind : exec (.find 0) s = .next { s with out := some (.index none) } ↔ findMark s.buf 0 = none := by
      refine ⟨fun h => ?_, fun h => by rw [← h]; rfl⟩
      have hout := congrArg State.out (Host.Outcome.next.inj h)
      simpa using hout
    rw [hfind, lastMark_eq_none, findMark_eq_none]
    exact ⟨fun h j _ => h j, fun h j => h j (Nat.zero_le j)⟩

/-- The cells of `BUF` are its bytes by offset (R60). -/
theorem mem_memory_iff {s : State} {a : Nat} {x : Byte} : (a, x) ∈ s.memory ↔ s.readByte a = some x := by
  rw [State.memory, List.mem_iff_getElem?]
  simp only [cellsFrom_get, Nat.zero_add, Option.map_eq_some_iff, Prod.mk.injEq]
  constructor
  · rintro ⟨i, y, hy, rfl, rfl⟩; exact hy
  · exact fun h => ⟨a, x, h, rfl, rfl⟩

/-- Settles O57: by `memory_wf` and `mem_memory_iff`. -/
theorem memoryFormIsCanonical : Obligations.MemoryFormIsCanonical := fun s => ⟨memory_wf s, fun _ _ => mem_memory_iff⟩

end Sys2Proof.Machine
end

section
/-! SUPPORT. The checksum, the codecs and the body fields run on their own: what each answers, and where it has no meaning
(R130, R140 to R147, R180 to R196). -/

namespace Sys2Proof.Machine

/-! ### Checksum and codecs -/

/-- Settles O15: CRC16 writes `CRCACC` and the latch. -/
theorem crc16WritesItsRegister : Obligations.Crc16WritesItsRegister := fun _ _ => rfl

/-- Settles O20: the comparison is `sent`. -/
theorem sentNMapsTheSentinel : Obligations.SentNMapsTheSentinel := fun _ _ _ _ => rfl

/-- HDR.DECODE of a header that can be read (R140). -/
theorem exec_hdrDecode_of_readHeader {b : List Byte} {h : RawHeader} (hr : readHeader b = some h) (s : State) :
    exec (.hdrDecode b) s = .next ((s.setDatapath (s.dp.loadHeader h)).produce (.header h)) := by
  simp only [exec, execHdrDecode, hdrDecode, hr]

/-- Settles O18: the fields in numbers by the byte order lemmas, and the packed ID is the two bytes it was read from. -/
theorem hdrDecodeReadsTheHeader : Obligations.HdrDecodeReadsTheHeader := by
  intro b0 b1 b2 b3 b4 b5 b6 b7 g s
  refine ⟨{ sync := (b0, b1), crc := u16le b2 b3, blockNumber := idNumber b4 b5, blockRevision := idRevision b5,
            length := u16le b6 b7 }, (exec_hdrDecode_of_readHeader rfl s).trans ?_, rfl, u16le_toNat b2 b3,
    idNumber_eq b4 b5, idRevision_eq b5, u16le_toNat b6 b7⟩
  have hid : packId (idNumber b4 b5) (idRevision b5) = b5 ++ b4 := packId_id b4 b5
  simp only [Datapath.loadHeader, hid]
  rfl

/-- A validity flag is down exactly at the sentinel (R143). -/
theorem towValid_eq (tow : U32) : towValid tow = if tow = 0xFFFFFFFF then 0 else 1 := by
  unfold towValid flagBit
  by_cases h : tow = 0xFFFFFFFF <;> simp [h, Config.towSentinel]

theorem wncValid_eq (wnc : U16) : wncValid wnc = if wnc = 0xFFFF then 0 else 1 := by
  unfold wncValid flagBit
  by_cases h : wnc = 0xFFFF <;> simp [h, Config.wncSentinel]

theorem towValid_eq_one_iff {tow : U32} : towValid tow = 1 ↔ tow ≠ 0xFFFFFFFF := by
  rw [towValid_eq]
  split <;> simp_all

theorem wncValid_eq_one_iff {wnc : U16} : wncValid wnc = 1 ↔ wnc ≠ 0xFFFF := by
  rw [wncValid_eq]
  split <;> simp_all

/-- The TimeInfo by its four combinations of the sentinels (R144). -/
theorem timeInfo_eq (conv : U16 → U32 → Timestamp × CalendarDate) (tow : U32) (wnc : U16) : timeInfo conv tow wnc =
    { tow := if tow = 0xFFFFFFFF then none else some tow
      wnc := if wnc = 0xFFFF then none else some wnc
      timestamp := if tow = 0xFFFFFFFF ∨ wnc = 0xFFFF then none else some (conv wnc tow).1
      date := if tow = 0xFFFFFFFF ∨ wnc = 0xFFFF then none else some (conv wnc tow).2 } := by
  simp only [timeInfo, sent, towValid_eq_one_iff, wncValid_eq_one_iff, ne_eq, ← not_or, ite_not]

/-- TIME.DECODE of a time block that can be read (R143). -/
theorem exec_timeDecode_of_readTime {f : List Byte} {t : U32 × U16} (ht : readTime f = some t) (s : State) :
    exec (.timeDecode f) s =
      .next ((s.setDatapath (s.dp.loadTime t)).produce (.time (timeInfo Config.timeConv t.1 t.2))) := by
  simp only [exec, execTimeDecode, ht]

/-- Settles O19: the raw fields by `readTime_value`, the sentinels by `timeInfo_eq`. -/
theorem timeDecodeConvertsTheSentinels : Obligations.TimeDecodeConvertsTheSentinels := by
  intro f s hlen
  obtain ⟨tow, wnc, ht, htow, hwnc⟩ := readTime_value hlen
  refine ⟨tow, wnc, htow, hwnc, (exec_timeDecode_of_readTime ht s).trans ?_⟩
  rw [timeInfo_eq, Datapath.loadTime, towValid_eq, wncValid_eq]
  rfl

/-! ### Registry and fields -/

/-- Settles O25: the table is looked up by the number alone. -/
theorem regDecodeDispatches : Obligations.RegDecodeDispatches := by
  refine fun num rev body s => ⟨rfl, fun table => ⟨fun d hd => ?mapped, fun hnone => ?unmapped⟩⟩
  case mapped => simp only [regDecode, hd]
  case unmapped => simp only [regDecode, hnone]; rfl

/-- An operation on an unsigned field inside the body answers its value (R188 to R190, R192, R193). -/
theorem yieldOr_readUnsigned {n : Nat} {body : List Byte} {off : Nat} (h : off + n ≤ body.length)
    (sentinel : Option (BitVec (8 * n))) (tag : Option (BitVec (8 * n)) → FieldValue) (s : State) :
    ∃ raw, raw.toNat = bytesValue body off n ∧
      yieldOr .readOutside (((readUnsigned n body off sentinel).map tag).map .field) s =
        .next { s with out := some (.field (tag (if sentinel = some raw then none else some raw))) } := by
  obtain ⟨raw, hraw, hread⟩ := readUnsigned_value h sentinel
  exact ⟨raw, hraw, yieldOr_field (by rw [hread, Option.map_some]) _ s⟩

/-- Settles O26: one lemma at the five widths. -/
theorem unsignedFieldsRead : Obligations.UnsignedFieldsRead := fun _ _ s =>
  ⟨fun h x => yieldOr_readUnsigned h x .u8 s, fun h x => yieldOr_readUnsigned h x .u16 s,
    fun h x => yieldOr_readUnsigned h x .u32 s, fun h x => yieldOr_readUnsigned h x .f32 s,
    fun h x => yieldOr_readUnsigned h x .f64 s⟩

/-- Two's complement: the raw value, less `2 ^ width` when its top bit is set (R191). -/
theorem toInt_eq_sub {m w : Nat} (hw : m = w + 1) (raw : BitVec m) :
    raw.toInt = (raw.toNat : Int) - (if 2 ^ w ≤ raw.toNat then 2 ^ (w + 1) else 0) := by
  subst hw
  have htop : 2 * raw.toNat < 2 ^ (w + 1) ↔ ¬ 2 ^ w ≤ raw.toNat := by rw [Nat.pow_succ]; omega
  rw [BitVec.toInt_eq_toNat_cond]
  simp only [htop, ite_not]
  split
  · push_cast; rfl
  · rw [sub_zero]

/-- An operation on a signed field inside the body answers its value (R191). -/
theorem yieldOr_readSigned {n w : Nat} (hw : 8 * n = w + 1) {body : List Byte} {off : Nat} (h : off + n ≤ body.length)
    (sentinel : Option (BitVec (8 * n))) (tag : Option Int → FieldValue) (s : State) :
    ∃ (raw : BitVec (8 * n)) (v : Int), raw.toNat = bytesValue body off n ∧
      v = (raw.toNat : Int) - (if 2 ^ w ≤ raw.toNat then 2 ^ (w + 1) else 0) ∧
      yieldOr .readOutside (((readSigned n body off sentinel).map tag).map .field) s =
        .next { s with out := some (.field (tag (if sentinel = some raw then none else some v))) } := by
  obtain ⟨raw, hraw, hread⟩ := readSigned_value h sentinel
  exact ⟨raw, raw.toInt, hraw, toInt_eq_sub hw raw, yieldOr_field (by rw [hread, Option.map_some]) _ s⟩

/-- Settles O27: one lemma at the three widths. -/
theorem signedFieldsRead : Obligations.SignedFieldsRead := fun _ _ s =>
  ⟨fun h x => yieldOr_readSigned (w := 7) rfl h x .i8 s, fun h x => yieldOr_readSigned (w := 15) rfl h x .i16 s,
    fun h x => yieldOr_readSigned (w := 31) rfl h x .i32 s⟩

/-- The sub-field of a value, in numbers (R194). -/
theorem fldBits_inside {w : Nat} (v : BitVec w) {lo width : Nat} (h : lo + width ≤ w) :
    fldBits v lo width = some (v.toNat / 2 ^ lo % 2 ^ width) := by
  rw [fldBits, if_pos h, Nat.shiftRight_eq_div_pow, Nat.one_shiftLeft, Nat.and_two_pow_sub_one_eq_mod]

/-- Settles O28: by `fldBits_inside`. -/
theorem bitFieldExtracts : Obligations.BitFieldExtracts := by
  intro w v lo width s h
  change yieldOr .bitsOutside ((fldBits v lo width).map .bits) s = _
  rw [fldBits_inside v h]
  rfl

/-- The bytes from `endOff` to the end, as the sum of R64. -/
theorem bytesValue_to_end {body : List Byte} {endOff : Nat} (h : endOff ≤ body.length) :
    bytesValue body endOff (body.length - endOff) = leNat (body.drop endOff) := by
  rw [bytesValue_eq (by omega), List.take_of_length_le (List.length_drop ▸ le_rfl)]

/-- The padding behind `endOff`, inside the body (R196). -/
theorem fldPad_inside {body : List Byte} {endOff : Nat} (h : endOff ≤ body.length) : fldPad body endOff =
    some (if endOff = body.length then none else some (bytesValue body endOff (body.length - endOff))) := by
  rw [bytesValue_to_end h, fldPad, if_neg (Nat.not_lt.mpr h)]
  split <;> rfl

/-- Settles O29: the value by `fldPad_inside`, its bound by `leNat_lt`. -/
theorem paddingIsOneInteger : Obligations.PaddingIsOneInteger := by
  intro body endOff s h
  refine ⟨if endOff = body.length then none else some (bytesValue body endOff (body.length - endOff)), ?answer,
    fun hend => if_pos hend, fun hlt => ⟨if_neg hlt.ne, ?bound⟩⟩
  case answer =>
    change yieldOr .readOutside ((fldPad body endOff).map .padding) s = _
    rw [fldPad_inside h]
    rfl
  case bound =>
    have := leNat_lt (body.drop endOff)
    rwa [← bytesValue_to_end h, List.length_drop, show 256 = 2 ^ 8 from rfl, ← pow_mul] at this

/-! ### Outside the contract -/

theorem readHeader_none {b : List Byte} (h : b.length < 8) : readHeader b = none := by
  rw [← Option.isNone_iff_eq_none, ← Option.not_isSome, readHeader_isSome]
  simpa using h

theorem readTime_none {f : List Byte} (h : f.length < 14) : readTime f = none := by
  rw [← Option.isNone_iff_eq_none, ← Option.not_isSome, readTime_isSome]
  simpa using h

/-- An operation without a value is refused (R64, R194). -/
theorem yieldOr_none {α : Type} {v : Option α} (h : v = none) (f : α → Result) (why : Refusal) (s : State) :
    yieldOr why (v.map f) s = .refused why := by
  rw [h]; rfl

theorem readField_none {kind : FieldKind} {body : List Byte} {off : Nat} (h : body.length < off + kind.size) :
    readField kind body off = none := by
  rw [← Option.isNone_iff_eq_none, ← Option.not_isSome, readField_isSome]
  simpa using h

/-- Settles O30: none of the reads has a value there. -/
theorem internalOperationsStopOutsideTheirContract : Obligations.InternalOperationsStopOutsideTheirContract := by
  intro b off w lo width v s
  have hfield (kind : FieldKind) (h : b.length < off + kind.size) :
      yieldOr .readOutside ((readField kind b off).map .field) s = .refused .readOutside :=
    yieldOr_none (readField_none h) _ _ s
  refine ⟨fun h => ⟨?hdr, ?extract⟩, fun h => ?time, fun h x => ⟨hfield (.u8 x) h, hfield (.i8 x) h⟩,
    fun h x => ⟨hfield (.u16 x) h, hfield (.i16 x) h⟩,
    fun h x => ⟨hfield (.u32 x) h, hfield (.i32 x) h, hfield (.f32 x) h⟩, fun h x => hfield (.f64 x) h,
    fun h => ?pad, fun h => ?bits⟩
  case hdr => simp only [exec, execHdrDecode, hdrDecode, readHeader_none h]
  case extract => simp only [exec, execExtract, extract, hdrDecode, readHeader_none h]
  case time => simp only [exec, execTimeDecode, readTime_none h]
  case pad => exact yieldOr_none (if_pos h) _ _ s
  case bits => exact yieldOr_none (if_neg (Nat.not_le.mpr h)) _ _ s

end Sys2Proof.Machine
end

section
/-! SUPPORT. EXTRACT run on its own: its verdicts, its registers, what it accepts, and what it does not look at (R101, R160 to
R172). -/

namespace Sys2Proof.Machine

/-! ### The fields in numbers -/

theorem bytesValue_two (s : List Byte) (off : Nat) :
    bytesValue s off 2 = (s.getD off 0).toNat + 256 * (s.getD (off + 1) 0).toNat := by
  rw [bytesValue_succ, bytesValue_succ]
  rfl

/-- The header's fields are the sums of R64 at their offsets (R99, R140). -/
theorem readHeader_values {b : List Byte} {h : RawHeader} (hr : readHeader b = some h) :
    (u16le h.sync.1 h.sync.2).toNat = bytesValue b 0 2 ∧ h.crc.toNat = bytesValue b 2 2 ∧
    (packId h.blockNumber h.blockRevision).toNat = bytesValue b 4 2 ∧ h.length.toNat = bytesValue b 6 2 := by
  rcases b with _ | ⟨b0, _ | ⟨b1, _ | ⟨b2, _ | ⟨b3, _ | ⟨b4, _ | ⟨b5, _ | ⟨b6, _ | ⟨b7, g⟩⟩⟩⟩⟩⟩⟩⟩
  case cons.cons.cons.cons.cons.cons.cons.cons =>
    cases hr
    simp only [packId_id, u16le_toNat, bytesValue_two]
    exact ⟨rfl, rfl, rfl, rfl⟩
  all_goals cases hr

theorem readHeader_length {b : List Byte} {h : RawHeader} (hr : readHeader b = some h) : 8 ≤ b.length :=
  of_decide_eq_true ((readHeader_isSome b).symm.trans (hr ▸ rfl))

theorem readTime_take {f : List Byte} {n : Nat} (hn : 14 ≤ n) : readTime (f.take n) = readTime f := by
  obtain ⟨m, rfl⟩ : ∃ m, n = m + 14 := ⟨n - 14, by omega⟩
  have hdrop : (f.take (m + 14)).drop 8 = (f.drop 8).take (m + 6) := by rw [List.drop_take]; congr 1
  unfold readTime
  rw [hdrop]
  rcases f.drop 8 with _ | ⟨a0, _ | ⟨a1, _ | ⟨a2, _ | ⟨a3, _ | ⟨a4, _ | ⟨a5, t⟩⟩⟩⟩⟩⟩ <;> rfl

/-- The acceptance predicate in the frame's bytes (R101). -/
theorem wellFormedFrame_iff_bytes {f : List Byte} : wellFormedFrame f = true ↔
    16 ≤ f.length ∧ f[0]? = some 0x24 ∧ f[1]? = some 0x40 ∧ bytesValue f 6 2 = f.length ∧ f.length % 4 = 0 ∧
      bytesValue f 2 2 = (crc16 (f.drop 4)).toNat := by
  have key {h : RawHeader} (hr : readHeader f = some h) :
      h.sync = (Config.sync0, Config.sync1) ∧ h.length.toNat = f.length ∧ h.length.toNat % 4 = 0 ∧ h.crc = frameCrc f ↔
      (f[0]? = some 0x24 ∧ f[1]? = some 0x40) ∧ bytesValue f 6 2 = f.length ∧ f.length % 4 = 0 ∧
        bytesValue f 2 2 = (crc16 (f.drop 4)).toNat := by
    obtain ⟨-, hcrc, -, hlen⟩ := readHeader_values hr
    rw [readHeader_sync hr, markerAt_iff, ← hlen, ← hcrc, ← BitVec.toNat_eq]
    exact and_congr_right fun _ => and_congr_right fun h => by rw [h]; rfl
  rw [wellFormedFrame_iff]
  constructor
  · rintro ⟨h, hr, h16, hrest⟩
    obtain ⟨⟨h0, h1⟩, hbytes⟩ := (key hr).mp hrest
    exact ⟨h16, h0, h1, hbytes⟩
  · rintro ⟨h16, h0, h1, hbytes⟩
    obtain ⟨h, hr⟩ := Option.isSome_iff_exists.mp ((readHeader_isSome f).trans (decide_eq_true (by omega)))
    exact ⟨h, hr, h16, (key hr).mpr ⟨⟨h0, h1⟩, hbytes⟩⟩

/-! ### EXTRACT -/

/-- On a header that can be read EXTRACT answers (R170). -/
theorem exists_extract {b : List Byte} {h : RawHeader} (hr : readHeader b = some h) (p : Params) :
    ∃ x d, extract p b = some (x, d) := by
  have hs : (extract p b).isSome = true := (extract_isSome p b).trans (decide_eq_true (readHeader_length hr))
  obtain ⟨⟨x, d⟩, hx⟩ := Option.isSome_iff_exists.mp hs
  exact ⟨x, d, hx⟩

/-- EXTRACT run on its own leaves its answer in the latch and its registers, and nothing else (R171). -/
theorem exec_extract_of_extract {b : List Byte} {s : State} {x : Extracted} {d : Datapath}
    (hx : extract (Config.params s.fw) b = some (x, d)) :
    exec (.extract b) s = .next ((s.setDatapath d).produce (.extracted x)) := by
  simp only [exec, execExtract, hx]

/-- And only so. -/
theorem extract_of_exec_extract {b : List Byte} {s t : State} (ht : exec (.extract b) s = .next t) :
    ∃ x d, extract (Config.params s.fw) b = some (x, d) ∧ t = (s.setDatapath d).produce (.extracted x) := by
  simp only [exec, execExtract] at ht
  split at ht
  · cases ht; exact ⟨_, _, ‹_›, rfl⟩
  · cases ht

/-- `STATUS` and the header registers are written whatever the verdict (R29, R140). -/
theorem extract_registers {p : Params} {b : List Byte} {h : RawHeader} {x : Extracted} {d : Datapath}
    (hx : extract p b = some (x, d)) (hr : readHeader b = some h) : d.status = some x.status ∧ d.loadHeader h = d := by
  obtain ⟨hd, hr', hcases⟩ := extract_cases hx
  obtain rfl : h = hd := Option.some.inj (hr.symm.trans hr')
  rcases hcases with ⟨_, rfl, rfl⟩ | ⟨_, _, rfl, rfl⟩ | ⟨_, _, _, rfl, rfl⟩ | ⟨_, _, _, t, _, rfl, rfl⟩ <;>
    exact ⟨rfl, rfl⟩

theorem lengthFormOk_eq_false_iff {len : U16} : lengthFormOk len = false ↔ len.toNat % 4 ≠ 0 ∨ len.toNat < 14 := by
  rw [← Bool.not_eq_true, lengthFormOk_iff]; omega

/-- Settles O21: the four answers of `extract_cases`, each behind the tests that lead to it. -/
theorem extractTestsInOrder : Obligations.ExtractTestsInOrder := by
  intro b s h hr
  obtain ⟨x, d, hx⟩ := exists_extract hr (Config.params s.fw)
  refine ⟨_, x, exec_extract_of_extract hx, rfl, (extract_registers hx hr).1, ?_⟩
  obtain ⟨hd, hr', hcases⟩ := extract_cases hx
  obtain rfl : h = hd := Option.some.inj (hr.symm.trans hr')
  rcases hcases with ⟨hlt, hx, -⟩ | ⟨hle, hform, hx, -⟩ | ⟨hle, hform, hcrc, hx, -⟩ | ⟨hle, hform, hcrc, t, ht, hx, -⟩
  · rwa [if_pos hlt]
  · rwa [if_neg (Nat.not_lt.mpr hle), if_pos (lengthFormOk_eq_false_iff.mp hform)]
  · rw [frameCrc] at hcrc
    rwa [if_neg (Nat.not_lt.mpr hle), if_neg (by rw [← lengthFormOk_eq_false_iff, hform]; decide), if_pos hcrc]
  · rw [frameCrc] at hcrc
    rw [if_neg (Nat.not_lt.mpr hle), if_neg (by rw [← lengthFormOk_eq_false_iff, hform]; decide), if_neg (not_not.mpr hcrc)]
    obtain ⟨-, h14⟩ := lengthFormOk_iff.mp hform
    exact ⟨_, hx, rfl, (decodedFrom_iff ((readHeader_take (by omega)).trans hr) ht).mpr rfl⟩

/-- `BODYLEN` is the declared length without the 14 bytes before the body (R164). -/
theorem toNat_sub_minFrame {len : U16} (h : 14 ≤ len.toNat) : (len - 14).toNat + 14 = len.toNat := by
  bv_omega

/-- Settles O22: `STATUS` and the header by `extract_registers`, the other registers by the verdict. -/
theorem extractRegistersByVerdict : Obligations.ExtractRegistersByVerdict := by
  intro b s t x ht hout
  obtain ⟨x', d, hx, rfl⟩ := extract_of_exec_extract ht
  obtain rfl : x' = x := by simpa using hout
  obtain ⟨h, hr, hcases⟩ := extract_cases hx
  obtain ⟨hstatus, hheader⟩ := extract_registers hx hr
  obtain ⟨hsync, -, hid, -⟩ := readHeader_values hr
  rw [State.produce_dp, State.setDatapath_dp]
  refine ⟨h, hr, hstatus, ⟨_, _, hheader ▸ rfl, hsync, hheader ▸ rfl, hid⟩, hheader ▸ rfl, hheader ▸ rfl, hheader ▸ rfl,
    hheader ▸ rfl, ?_⟩
  rcases hcases with ⟨-, rfl, rfl⟩ | ⟨-, -, rfl, rfl⟩ | ⟨-, hform, -, rfl, rfl⟩ | ⟨-, hform, -, tm, htime, rfl, rfl⟩
  · exact ⟨fun _ => ⟨rfl, rfl⟩, nofun, fun _ => ⟨rfl, rfl, rfl, rfl⟩, nofun⟩
  · exact ⟨fun _ => ⟨rfl, rfl⟩, nofun, fun _ => ⟨rfl, rfl, rfl, rfl⟩, nofun⟩
  · obtain ⟨-, h14⟩ := lengthFormOk_iff.mp hform
    exact ⟨nofun, fun _ => ⟨⟨_, rfl, toNat_sub_minFrame h14⟩, rfl⟩, fun _ => ⟨rfl, rfl, rfl, rfl⟩, nofun⟩
  · obtain ⟨-, h14⟩ := lengthFormOk_iff.mp hform
    refine ⟨nofun, fun _ => ⟨⟨_, rfl, toNat_sub_minFrame h14⟩, rfl⟩, fun hne => absurd rfl hne, fun _ => ?_⟩
    rw [readTime_take h14] at htime
    have h14b : 14 ≤ b.length := of_decide_eq_true ((readTime_isSome b).symm.trans (htime ▸ rfl))
    obtain ⟨tow, wnc, htime', htow, hwnc⟩ := readTime_value h14b
    obtain rfl : tm = (tow, wnc) := Option.some.inj (htime.symm.trans htime')
    exact ⟨tow, wnc, htow, hwnc, rfl, rfl, congrArg some (towValid_eq tow), congrArg some (wncValid_eq wnc)⟩

/-- The Frame that EXTRACT accepts has the header it read (R167). -/
theorem extract_ok_header {p : Params} {b : List Byte} {h : RawHeader} {f : Frame} {d : Datapath}
    (hx : extract p b = some (.ok f, d)) (hr : readHeader b = some h) : f.header = h := by
  obtain ⟨hd, hr', hcases⟩ := extract_cases hx
  obtain rfl : h = hd := Option.some.inj (hr.symm.trans hr')
  rcases hcases with ⟨_, hf, _⟩ | ⟨_, _, hf, _⟩ | ⟨_, _, _, hf, _⟩ | ⟨_, _, _, _, _, hf, _⟩ <;> cases hf
  rfl

/-- At a marker EXTRACT accepts exactly when the declared span is a well-formed frame (R101). -/
theorem extract_ok_iff {p : Params} {b : List Byte} {h : RawHeader} (hr : readHeader b = some h) (hm : markerAt b 0 = true) :
    (∃ fr d, extract p b = some (.ok fr, d)) ↔ wellFormedFrame (b.take h.length.toNat) = true := by
  constructor
  · rintro ⟨fr, d, hx⟩
    obtain ⟨hwf, hraw, -⟩ := extract_ok hx hm
    rwa [hraw, extract_ok_header hx hr] at hwf
  · intro hwf
    obtain ⟨h', t, -, -, -, hx⟩ := extract_wellFormed hwf
    obtain ⟨d, hx⟩ := hx p (b.drop h.length.toNat)
    rw [List.take_append_drop] at hx
    exact ⟨_, d, hx⟩

/-- Settles O23: by `extract_ok_iff` and `wellFormedFrame_iff_bytes`. -/
theorem extractAcceptsWellFormedFrames : Obligations.ExtractAcceptsWellFormedFrames := by
  intro b s h hr hm
  have haccepts : (∃ t fr, exec (.extract b) s = .next t ∧ t.out = some (.extracted (.ok fr))) ↔
      ∃ fr d, extract (Config.params s.fw) b = some (.ok fr, d) := by
    constructor
    · rintro ⟨t, fr, ht, hout⟩
      obtain ⟨x, d, hx, rfl⟩ := extract_of_exec_extract ht
      obtain rfl : x = .ok fr := by simpa using hout
      exact ⟨fr, d, hx⟩
    · rintro ⟨fr, d, hx⟩
      exact ⟨_, fr, exec_extract_of_extract hx, rfl⟩
  rw [haccepts, extract_ok_iff hr hm, wellFormedFrame_iff_bytes]
  exact ⟨fun hbytes => ⟨_, rfl, hbytes⟩, fun ⟨_, hf, hbytes⟩ => hf ▸ hbytes⟩

/-- EXTRACT reads nothing beyond the declared length (R164, R172). -/
theorem extract_take {b : List Byte} {h : RawHeader} (hr : readHeader b = some h) (h8 : 8 ≤ h.length.toNat)
    (hle : h.length.toNat ≤ b.length) (p : Params) : extract p (b.take h.length.toNat) = extract p b := by
  have hlen : (b.take h.length.toNat).length = h.length.toNat := List.length_take_of_le hle
  simp only [extract, hdrDecode, (readHeader_take h8).trans hr, hr, hlen, Nat.lt_irrefl, Nat.not_lt.mpr hle, if_false,
    List.take_take, Nat.min_self]

/-- Settles O24: by `extract_take`. -/
theorem extractIgnoresTrailingBytes : Obligations.ExtractIgnoresTrailingBytes := by
  intro b s h hr h8 hle
  simp only [exec, execExtract, extract_take hr h8 hle]

end Sys2Proof.Machine
end

section
/-! SUPPORT. DECODE_LAYOUT: the fields of one revision, and what a later revision keeps of them (R195 to R199). -/

namespace Sys2Proof.Machine

/-! ### One revision -/

/-- The fields of a body that is decoded as the lower of its revision and the highest known (R195, R197). -/
theorem presentFields_minRev (fields : List FieldSpec) (rev maxrev : BlockRevision) :
    presentFields fields (minRev rev maxrev) =
      fields.filter fun f => decide (f.since.toNat ≤ min rev.toNat maxrev.toNat) := by
  simp only [presentFields, BitVec.le_def, minRev_toNat]

/-- Settles O31: the two answers of `decodeLayout_cases`, each value by `yieldOr_field` for its type, the padding by
`fldPad_inside`. -/
theorem layoutDecodesTheRevisionsFields : Obligations.LayoutDecodesTheRevisionsFields := by
  intro name fields maxrev rev body s
  refine ⟨fun f => by cases f.kind <;> rfl, presentFields fields (minRev rev maxrev),
    fieldsEnd (presentFields fields (minRev rev maxrev)), decodeLayout name fields maxrev rev body,
    presentFields_minRev fields rev maxrev, fun f hf => le_fieldsEnd hf, fieldsEnd_attained _, rfl, ?_⟩
  rcases decodeLayout_cases name fields maxrev rev body with ⟨hshort, hres⟩ | ⟨hfits, vs, pad, hres, -, hread, hpad⟩
  · rw [hres]
    exact ⟨rfl, fun _ => rfl, fun hfits => absurd hfits (Nat.not_le.mpr hshort)⟩
  · rw [hres]
    refine ⟨rfl, fun hshort => absurd hfits (Nat.not_le.mpr hshort), fun _ => ⟨_, rfl, ?fields, ?padding⟩⟩
    case fields =>
      refine hread.imp fun f nv ⟨hname, hvalue⟩ => ⟨hname, ?_⟩
      obtain ⟨_, off, kind, _⟩ := f
      cases kind <;> exact yieldOr_field hvalue _ s
    case padding => exact Option.some.inj (hpad.symm.trans (fldPad_inside hfits))

/-! ### A later revision -/

/-- The values of some fields are theirs, one by one. -/
theorem readSpecs_eq_filterMap {body : List Byte} {fs : List FieldSpec} {vs : List (String × FieldValue)}
    (h : readSpecs body fs = some vs) : vs = fs.filterMap (readSpec body) := by
  induction fs generalizing vs with
  | nil => cases h; rfl
  | cons f fs ih =>
    simp only [readSpecs] at h
    split at h
    · rename_i v vs' hv hvs
      cases h
      rw [List.filterMap_cons_some hv, ← ih hvs]
    · cases h

/-- The fields of a body that could be read. -/
theorem decodeLayout_fields {name : String} {fields : List FieldSpec} {maxrev rev : BlockRevision} {body : List Byte}
    {v : LayoutValue} (h : (decodeLayout name fields maxrev rev body).body = some (.layout v)) :
    v.fields = (presentFields fields (minRev rev maxrev)).filterMap (readSpec body) ∧
      v.fields.length = (presentFields fields (minRev rev maxrev)).length := by
  rcases decodeLayout_cases name fields maxrev rev body with ⟨-, hres⟩ | ⟨-, vs, pad, hres, hspecs, hread, -⟩
  · rw [hres] at h; cases h
  · rw [hres] at h; cases h
    exact ⟨readSpecs_eq_filterMap hspecs, hread.length_eq.symm⟩

/-- A later revision has every field of an earlier one (R195). -/
theorem presentFields_sublist (fields : List FieldSpec) {rev later : BlockRevision} (h : rev ≤ later) :
    (presentFields fields rev).Sublist (presentFields fields later) := by
  refine List.monotone_filter_right fields fun f hf => ?_
  rw [decide_eq_true_eq] at hf ⊢
  exact BitVec.le_trans hf h

theorem minRev_mono {rev later : BlockRevision} (h : rev ≤ later) (maxrev : BlockRevision) :
    minRev rev maxrev ≤ minRev later maxrev := by
  rw [BitVec.le_def] at h ⊢
  rw [minRev_toNat, minRev_toNat]
  omega

/-- A revision beyond the highest known is decoded as that, any other as itself (R197). -/
theorem minRev_of_ge {rev maxrev : BlockRevision} (h : maxrev ≤ rev) : minRev rev maxrev = maxrev :=
  BitVec.eq_of_toNat_eq (by rw [minRev_toNat]; exact Nat.min_eq_right h)

theorem minRev_of_le {rev maxrev : BlockRevision} (h : rev ≤ maxrev) : minRev rev maxrev = rev := if_pos h

/-- Settles O32: the values go with the fields (`decodeLayout_fields`), and of the fields a later revision keeps all, and in
a well-formed layout as its first ones (`presentFields_prefix`). -/
theorem laterRevisionsKeepFields : Obligations.LaterRevisionsKeepFields := by
  intro name fields maxrev rev later body
  refine ⟨fun hge => ?beyond, fun hle v v' hv hv' => ?_⟩
  case beyond => rw [decodeLayout, decodeLayout, minRev_of_ge hge, minRev_of_ge (BitVec.le_refl maxrev)]
  obtain ⟨hvals, hlen⟩ := decodeLayout_fields hv
  obtain ⟨hvals', hlen'⟩ := decodeLayout_fields hv'
  refine ⟨?kept, fun hwf => ⟨?front, fun hlt hmax => ⟨?more, fun f hf hsince => layoutLegal_appends hwf hf hsince⟩⟩⟩
  case kept =>
    rw [hvals, hvals']
    exact (presentFields_sublist fields (minRev_mono hle maxrev)).filterMap _
  case front =>
    rw [hvals, hvals']
    exact (presentFields_prefix hwf (minRev_mono hle maxrev)).filterMap _
  case more =>
    rw [hlen, hlen', minRev_of_le (BitVec.le_trans hle hmax), minRev_of_le hmax]
    exact presentFields_length_lt hwf hlt hmax

end Sys2Proof.Machine
end
